-- ==== Sys2Proof/Word.lean ====
section
/-! DEFINITION. The word types of the LS-8 core: bytes (R14, R20) and the 9-bit program counter (R26). -/

namespace Sys2Proof

/-- A register value, memory byte, operand byte or immediate: unsigned, 8 bits (`00_scope.md` R14). -/
abbrev Byte := BitVec 8

/-- A program-counter value: 9 bits, of which 0..256 are reachable (`10_state.md` R26). -/
abbrev PcWord := BitVec 9

end Sys2Proof
end

