-- ==== Sys2Proof/Config.lean ====
section
/-! DEFINITION. The parameters of `00_scope.md` R13, at the values this hardware takes. They are configuration,
not state (`10_state.md` R19). No value of the spec is left open, so there is no free value here. -/

namespace Sys2Proof.Config

/-- `MEM_SIZE`: the memory cells, at addresses 0..255 (R13, R34). -/
@[simp] def memSize : Nat := 256

/-- `NREG`: the registers, indices 0..7 (R13, R20). -/
@[simp] def numRegs : Nat := 8

/-- `MAX_LEN`: the longest instruction, in bytes (R13, R55). -/
@[simp] def maxLen : Nat := 3

/-- `SP_RESET`: the reset value of R7 (R13, R21). -/
def spReset : Byte := 243

/-- `REG_RESET`: the reset value of R0..R6 (R13, R37; the spec's own decision D2, log 7). -/
def regReset : Byte := 0x00

/-- `PC_RESET`: the reset vector (R13, R37). -/
def pcReset : PcWord := 0

/-- `MEM_INIT`: what every cell holds at construction, and so what an address that memory does not list reads as
(R13, R35; the spec's own decision D5, log 6). -/
def memInit : Byte := 0x00

/-- `SHIFT_MASK`: the mask on SHL's and SHR's amount (R13, R84; the spec's own decision D6, log 8). -/
def shiftMask : Byte := 0x07

end Sys2Proof.Config
end

