-- ==== Sys2Proof/Syntax.lean ====
section
/-! DEFINITION. The 23 instructions (`00_scope.md` R2, `30_encoding.md` R62), each with its operand bytes as the
encoding holds them (R58: "Each operand is a raw unsigned byte"). An operand with the register role may hold any
byte: 8..255 is a form the spec describes, answered by AddressingError (R24, R59), so it is a term here (log 3). -/

namespace Sys2Proof

/-- An instruction. `a` is operand_a, `b` operand_b, `imm` LDI's operand_b (R59). -/
inductive Instr where
  /-- HLT, 0x01, F0 (R102). -/
  | hlt
  /-- RET, 0x11, F0 (R94). -/
  | ret
  /-- PUSH Ra, 0x45, F1 (R96). -/
  | push (a : Byte)
  /-- POP Ra, 0x46, F1 (R97). -/
  | pop (a : Byte)
  /-- PRN Ra, 0x47, F1 (R101). -/
  | prn (a : Byte)
  /-- CALL Ra, 0x50, F1 (R93). -/
  | call (a : Byte)
  /-- JMP Ra, 0x54, F1 (R90). -/
  | jmp (a : Byte)
  /-- JEQ Ra, 0x55, F1 (R91). -/
  | jeq (a : Byte)
  /-- JNE Ra, 0x56, F1 (R92). -/
  | jne (a : Byte)
  /-- INC Ra, 0x65, F1 (R79). -/
  | inc (a : Byte)
  /-- DEC Ra, 0x66, F1 (R80). -/
  | dec (a : Byte)
  /-- NOT Ra, 0x69, F1 (R83). -/
  | not (a : Byte)
  /-- LDI Ra, imm, 0x82, F2 (R100). -/
  | ldi (a imm : Byte)
  /-- ADD Ra, Rb, 0xA0, F2 (R74). -/
  | add (a b : Byte)
  /-- SUB Ra, Rb, 0xA1, F2 (R75). -/
  | sub (a b : Byte)
  /-- MUL Ra, Rb, 0xA2, F2 (R76). -/
  | mul (a b : Byte)
  /-- DIV Ra, Rb, 0xA3, F2 (R77). -/
  | div (a b : Byte)
  /-- MOD Ra, Rb, 0xA4, F2 (R78). -/
  | mod (a b : Byte)
  /-- CMP Ra, Rb, 0xA7, F2 (R87). -/
  | cmp (a b : Byte)
  /-- AND Ra, Rb, 0xA8, F2 (R81). -/
  | and (a b : Byte)
  /-- XOR Ra, Rb, 0xAB, F2 (R82). -/
  | xor (a b : Byte)
  /-- SHL Ra, Rb, 0xAC, F2 (R85). -/
  | shl (a b : Byte)
  /-- SHR Ra, Rb, 0xAD, F2 (R86). -/
  | shr (a b : Byte)
  deriving DecidableEq, Repr

end Sys2Proof
end

