-- ==== Sys2Proof/WellFormed.lean ====
section
/-! DEFINITION. The well-formed instructions: every operand with the register role names one of R0..R7
(`30_encoding.md` R59, `10_state.md` R24). The immediate of LDI is never checked (R100). -/

namespace Sys2Proof

/-- An operand byte that names a register (R24: "A register index is valid when it is in 0..7"). -/
def isRegByte (b : Byte) : Bool := b.toNat < Config.numRegs

/-- The check of R59: each operand byte in the register role is in 0..7. -/
def Instr.wf : Instr → Bool
  | .hlt => true
  | .ret => true
  | .push a => isRegByte a
  | .pop a => isRegByte a
  | .prn a => isRegByte a
  | .call a => isRegByte a
  | .jmp a => isRegByte a
  | .jeq a => isRegByte a
  | .jne a => isRegByte a
  | .inc a => isRegByte a
  | .dec a => isRegByte a
  | .not a => isRegByte a
  | .ldi a _ => isRegByte a
  | .add a b => isRegByte a && isRegByte b
  | .sub a b => isRegByte a && isRegByte b
  | .mul a b => isRegByte a && isRegByte b
  | .div a b => isRegByte a && isRegByte b
  | .mod a b => isRegByte a && isRegByte b
  | .cmp a b => isRegByte a && isRegByte b
  | .and a b => isRegByte a && isRegByte b
  | .xor a b => isRegByte a && isRegByte b
  | .shl a b => isRegByte a && isRegByte b
  | .shr a b => isRegByte a && isRegByte b

end Sys2Proof
end

