-- ==== Sys2Proof/Decode.lean ====
section
/-! DEFINITION. The instruction decoder (`00_scope.md` R6, `30_encoding.md` R55 to R66), total on any bytes, and
after it the encoder, written from the same opcode map (R62). -/

namespace Sys2Proof

/-! ## The opcode byte's fields (R56) -/

/-- `count = op[7:6]`: the operand bytes that follow the opcode (R56). -/
def opCount (op : Byte) : Nat := (op.extractLsb 7 6).toNat

/-- `is_alu = op[5]` (R56). -/
def opIsAlu (op : Byte) : Bool := op.getLsbD 5

/-- `sets_pc = op[4]`: the handler itself places the PC (R56, R68). -/
def opSetsPc (op : Byte) : Bool := op.getLsbD 4

/-- `ident = op[3:0]` (R56). It does not name an instruction by itself (R61). -/
def opIdent (op : Byte) : Nat := (op.extractLsb 3 0).toNat

/-- The length of an instruction in bytes, read from its opcode alone (R57). -/
def opLength (op : Byte) : Nat := 1 + opCount op

/-! ## Decoding -/

/-- Why bytes name no instruction. -/
inductive DecodeError where
  /-- The bytes end before the instruction does: at the end of memory, a fetch past address 255 (R58, R41). -/
  | outOfBytes
  /-- The opcode is not one of the 23 of R62 (R64), or its count field is 3 (R66). -/
  | unsupported
  deriving DecidableEq, Repr

/-- The opcode map (R62), matched on all 8 bits of the opcode (R61); `a` and `b` are the operand bytes. -/
def decodeOp (op a b : Byte) : Option Instr :=
  match op.toNat with
  | 0x01 => some .hlt
  | 0x11 => some .ret
  | 0x45 => some (.push a)
  | 0x46 => some (.pop a)
  | 0x47 => some (.prn a)
  | 0x50 => some (.call a)
  | 0x54 => some (.jmp a)
  | 0x55 => some (.jeq a)
  | 0x56 => some (.jne a)
  | 0x65 => some (.inc a)
  | 0x66 => some (.dec a)
  | 0x69 => some (.not a)
  | 0x82 => some (.ldi a b)
  | 0xA0 => some (.add a b)
  | 0xA1 => some (.sub a b)
  | 0xA2 => some (.mul a b)
  | 0xA3 => some (.div a b)
  | 0xA4 => some (.mod a b)
  | 0xA7 => some (.cmp a b)
  | 0xA8 => some (.and a b)
  | 0xAB => some (.xor a b)
  | 0xAC => some (.shl a b)
  | 0xAD => some (.shr a b)
  | _ => none

/-- Operand byte number `k` (0 is operand_a) of an opcode with `count` operands: the byte read, or the default 0 of
an operand the format does not read (R58). -/
def operandByte (count k : Nat) (rest : List Byte) : Byte := if k < count then rest.getD k 0 else 0

/-- Decode the instruction at the front of `bytes` and give what follows it. The checks come in the order of the step
cycle (R67, R108): the opcode byte, the count field 3 (R66), the operand bytes (R58), the opcode map (R62). -/
def decode : List Byte → Except DecodeError (Instr × List Byte)
  | [] => .error .outOfBytes
  | op :: rest =>
    if opCount op = 3 then .error .unsupported
    else if rest.length < opCount op then .error .outOfBytes
    else match decodeOp op (operandByte (opCount op) 0 rest) (operandByte (opCount op) 1 rest) with
      | some i => .ok (i, rest.drop (opCount op))
      | none => .error .unsupported

/-- The bytes, in address order, of an instruction the opcode table numbers: bit 0 of `w` is the least significant bit
of the first byte, and every bit from `nbits` up is 0. As long as the longest instruction (R55). -/
def tableWordBytes (nbits w : Nat) : List Byte :=
  (List.range Config.maxLen).map fun k => BitVec.ofNat 8 ((w % 2 ^ nbits) / 2 ^ (8 * k))

/-- The instruction the decoder reads from an instruction whose bits are `w`, as the opcode table numbers them. -/
def decodeTableWord (nbits w : Nat) : Option Instr :=
  match decode (tableWordBytes nbits w) with
  | .ok (i, _) => some i
  | .error _ => none

/-! ## Encoding -/

/-- The opcode byte of an instruction (R62). -/
def opcode : Instr → Byte
  | .hlt => 0x01
  | .ret => 0x11
  | .push _ => 0x45
  | .pop _ => 0x46
  | .prn _ => 0x47
  | .call _ => 0x50
  | .jmp _ => 0x54
  | .jeq _ => 0x55
  | .jne _ => 0x56
  | .inc _ => 0x65
  | .dec _ => 0x66
  | .not _ => 0x69
  | .ldi _ _ => 0x82
  | .add _ _ => 0xA0
  | .sub _ _ => 0xA1
  | .mul _ _ => 0xA2
  | .div _ _ => 0xA3
  | .mod _ _ => 0xA4
  | .cmp _ _ => 0xA7
  | .and _ _ => 0xA8
  | .xor _ _ => 0xAB
  | .shl _ _ => 0xAC
  | .shr _ _ => 0xAD

/-- The operand bytes of an instruction, operand_a first (R55, R59). -/
def operands : Instr → List Byte
  | .hlt => []
  | .ret => []
  | .push a => [a]
  | .pop a => [a]
  | .prn a => [a]
  | .call a => [a]
  | .jmp a => [a]
  | .jeq a => [a]
  | .jne a => [a]
  | .inc a => [a]
  | .dec a => [a]
  | .not a => [a]
  | .ldi a imm => [a, imm]
  | .add a b => [a, b]
  | .sub a b => [a, b]
  | .mul a b => [a, b]
  | .div a b => [a, b]
  | .mod a b => [a, b]
  | .cmp a b => [a, b]
  | .and a b => [a, b]
  | .xor a b => [a, b]
  | .shl a b => [a, b]
  | .shr a b => [a, b]

/-- The bytes of an instruction in address order: opcode, operand_a, operand_b (R55, R43). -/
def encode (i : Instr) : List Byte := opcode i :: operands i

end Sys2Proof
end

