-- ==== Sys2Proof/Machine/State.lean ====
section
/-! DEFINITION. The state of the LS-8 core as plain data (`10_state.md` R19, a closed list by R33), the ways a step
can stop, and the state after reset. -/

namespace Sys2Proof.Machine

/-- A register R0..R7 (`10_state.md` R20). -/
inductive Reg where
  | r0 | r1 | r2 | r3 | r4 | r5 | r6 | r7
  deriving DecidableEq, Repr

/-- The register file `x[0..7]`, eight bytes with no banks or aliases (R20). R5 and R6 are ordinary storage (R22);
R7 is the stack pointer (R21). -/
structure RegFile where
  r0 : Byte
  r1 : Byte
  r2 : Byte
  r3 : Byte
  r4 : Byte
  r5 : Byte
  r6 : Byte
  r7 : Byte
  deriving DecidableEq, Repr

/-- The flags register FL, which "takes exactly four values: `none` (reset), `{E}`, `{L}`, `{G}`" (R28). Its bits and
its byte view are in `Machine/Flags.lean`. -/
inductive Flags where
  /-- No bit set: after reset, before any CMP. -/
  | noneSet
  /-- `{E}`: the last CMP found its operands equal. -/
  | equal
  /-- `{L}`: the last CMP found its first operand less. -/
  | less
  /-- `{G}`: the last CMP found its first operand greater. -/
  | greater
  deriving DecidableEq, Repr

/-- The three step errors (`60_exceptions.md` R103, R105). `ProgramTooLarge` is no step error (R111). -/
inductive ErrorKind where
  /-- The opcode byte is not one of the 23 (R105 row 1). -/
  | unsupportedInstruction
  /-- DIV or MOD by zero (R105 row 2). -/
  | divisionByZero
  /-- A register index or memory address outside its range, the stack bounds among them (R105 rows 3a to 3f). -/
  | addressingError
  deriving DecidableEq, Repr

/-- The run status (R31). -/
inductive Status where
  | running
  | halted
  | error (kind : ErrorKind)
  deriving DecidableEq, Repr

/-- Memory: the listed cells, as (address, byte) pairs. An address that is not listed reads as `Config.memInit`
(R35; log 6). Its canonical form is `Memory.wf`, in `Machine/Ops.lean`. -/
abbrev Memory := List Host.Cell

/-- The state of the block (R19). -/
structure State where
  /-- `x[0..7]` (R20). -/
  regs : RegFile
  /-- The program counter (R26). -/
  pc : PcWord
  /-- The flags register FL (R28). -/
  fl : Flags
  /-- The run status (R31). -/
  status : Status
  /-- `mem[0..255]` (R34). -/
  mem : Memory
  /-- DESIGN CHOICE (log 2), the model's own field: the bytes PRN has put on the output port, oldest first. The port
  is "an interface, not state" (R19, R32); this is the model's record of what the host received. -/
  out : List Byte
  deriving DecidableEq, Repr

/-- Faults. There are none: every error of the block is taken as the spec describes it, a next state whose status is
`Error(kind)` (R106; log 1), so no step ends outside the state. Nothing raises a fault. -/
inductive Fault where
  deriving DecidableEq, Repr

/-- Refusals. -/
inductive Refusal where
  /-- An instruction without a meaning in this model. Raised by no arm of `exec`: every instruction has its meaning.
  Safe: a run that met it would stop. -/
  | notModelled (mnemonic : String)
  deriving DecidableEq, Repr

/-- The block right after construction and reset (R37, R119, R120): R0..R6 zero, R7 = 243, pc 0, FL none, Running, and
every memory cell 0x00. No program is loaded (log 5); nothing has been emitted (log 2). -/
def State.reset : State where
  regs :=
    { r0 := Config.regReset, r1 := Config.regReset, r2 := Config.regReset, r3 := Config.regReset,
      r4 := Config.regReset, r5 := Config.regReset, r6 := Config.regReset, r7 := Config.spReset }
  pc := Config.pcReset
  fl := .noneSet
  status := .running
  mem := []
  out := []

end Sys2Proof.Machine
end

