-- ==== Sys2Proof/Machine/Ops.lean ====
section
/-! DEFINITION. The operations every instruction is built from: memory, registers, the PC sequencer, the stack
controller, the output port, and taking an error. -/

namespace Sys2Proof.Machine

/-- What a step or a meaning answers. -/
abbrev Result := Host.Outcome State Fault Refusal

/-! ## Memory (`20_memory.md`) -/

/-- The canonical form: addresses strictly rising and below 256, and no cell that holds what an unlisted address reads
as. -/
abbrev Memory.wf (m : Memory) : Prop :=
  m.Pairwise (fun c d => c.1 < d.1) ∧ ∀ c ∈ m, c.1 < Config.memSize ∧ c.2 ≠ Config.memInit

/-- The byte at an address (R46: a plain array). -/
def Memory.read : Memory → Nat → Byte
  | [], _ => Config.memInit
  | c :: m, addr => if c.1 = addr then c.2 else Memory.read m addr

/-- List the cell `(addr, v)`, in place. -/
def Memory.insert : Memory → Nat → Byte → Memory
  | [], addr, v => [(addr, v)]
  | c :: m, addr, v =>
    if addr < c.1 then (addr, v) :: c :: m
    else if c.1 = addr then (addr, v) :: m
    else c :: Memory.insert m addr v

/-- List no cell at `addr`. -/
def Memory.erase (m : Memory) (addr : Nat) : Memory := m.filter fun c => c.1 ≠ addr

/-- `mem[addr] <- v`, keeping the canonical form. -/
def Memory.write (m : Memory) (addr : Nat) (v : Byte) : Memory :=
  if v = Config.memInit then m.erase addr else m.insert addr v

/-- `MemRead(addr, 1)` (R41). -/
def memRead (addr : Nat) (s : State) : Except ErrorKind Byte :=
  if addr < Config.memSize then .ok (s.mem.read addr) else .error .addressingError

/-- `MemWrite(addr, 1, v)` (R41). -/
def memWrite (addr : Nat) (v : Byte) (s : State) : Except ErrorKind State :=
  if addr < Config.memSize then .ok { s with mem := s.mem.write addr v } else .error .addressingError

/-- Store bytes at ascending addresses from `addr` (R43). Past address 255 there is no cell to store to. -/
def storeBytes : Memory → Nat → List Byte → Memory
  | m, _, [] => m
  | m, addr, v :: vs =>
    if addr < Config.memSize then storeBytes (m.write addr v) (addr + 1) vs else m

/-! ## Registers (`10_state.md` R20 to R25) -/

/-- Read a register of the file. -/
def RegFile.get (f : RegFile) : Reg → Byte
  | .r0 => f.r0
  | .r1 => f.r1
  | .r2 => f.r2
  | .r3 => f.r3
  | .r4 => f.r4
  | .r5 => f.r5
  | .r6 => f.r6
  | .r7 => f.r7

/-- Write a register of the file. No register is hardwired (R20). -/
def RegFile.set (f : RegFile) (r : Reg) (v : Byte) : RegFile :=
  match r with
  | .r0 => { f with r0 := v }
  | .r1 => { f with r1 := v }
  | .r2 => { f with r2 := v }
  | .r3 => { f with r3 := v }
  | .r4 => { f with r4 := v }
  | .r5 => { f with r5 := v }
  | .r6 => { f with r6 := v }
  | .r7 => { f with r7 := v }

/-- `x[i]` (R15). -/
def State.reg (s : State) (r : Reg) : Byte := s.regs.get r

/-- `x[i] <- v` (R15). -/
def State.setReg (s : State) (r : Reg) (v : Byte) : State := { s with regs := s.regs.set r v }

/-- `SP`, another name for `x[7]` (R15, R21). -/
def State.sp (s : State) : Byte := s.reg .r7

/-! ## The program counter (`30_encoding.md` R68) -/

/-- Advance the PC past an instruction of `n` bytes, in 9 bits (R27, R68). -/
def advance (n : Nat) (s : State) : State := { s with pc := s.pc + BitVec.ofNat 9 n }

/-- Set the PC to an 8-bit target (R89). -/
def jump (target : Byte) (s : State) : State := { s with pc := target.setWidth 9 }

/-! ## Flags, output and halt -/

/-- `FL <- f` (R15). -/
def setFlags (f : Flags) (s : State) : State := { s with fl := f }

/-- `emit(v)` (R15, R32): the values leave in execution order. -/
def emit (v : Byte) (s : State) : State := { s with out := s.out ++ [v] }

/-- `halt` (R15, R102). -/
def halt (s : State) : State := { s with status := .halted }

/-! ## The stack controller (`00_scope.md` R10, `42_stack.md` R95) -/

/-- A push: the bound is checked first (underflow, SP = 0), then SP moves down and the byte is stored there. -/
def push (v : Byte) (s : State) : Except ErrorKind State :=
  if s.sp = 0 then .error .addressingError
  else memWrite (s.sp - 1).toNat v (s.setReg .r7 (s.sp - 1))

/-- A pop: the bound is checked first (overflow, SP = 255), then the byte at SP is read and SP moves up. -/
def pop (s : State) : Except ErrorKind (Byte × State) :=
  if s.sp = 255 then .error .addressingError
  else match memRead s.sp.toNat s with
    | .ok v => .ok (v, s.setReg .r7 (s.sp + 1))
    | .error k => .error k

/-! ## Taking an error, and what comes after one (`60_exceptions.md`) -/

/-- Take a step error (R106, R109): the status becomes `Error(kind)` and nothing else changes, so `pc` still holds the
address of the faulting instruction. No vector, no saved register, no mode (R109). -/
def takeError (k : ErrorKind) (s : State) : State := { s with status := .error k }

/-- End an instruction that began in `s`: its next state, or, if it raised an error, `s` with that error taken, all the
instruction's writes discarded (R15 `raise`, R106). -/
def commit (s : State) : Except ErrorKind State → Result
  | .ok t => .next t
  | .error k => .next (takeError k s)

/-- A step while the status is not Running changes nothing (R31, R110, R118; the spec's own decision D11, log 12). -/
def stoppedStep (s : State) : Result := .next s

/-- The way out of a stop: `run` begins again at 0 (R125). There is no return from an error inside the instruction set
(R110). -/
def startRun (s : State) : State := { s with pc := 0, status := .running }

end Sys2Proof.Machine
end

