-- ==== Sys2Proof/Machine/Flags.lean ====
section
/-! DEFINITION. The flags register's bits (`10_state.md` R28, R36) and the one flag computation there is, CMP's
(`40_alu.md` R87). -/

namespace Sys2Proof.Machine

/-- `FL.E` (R28). -/
def Flags.E (f : Flags) : Bool := f = .equal

/-- `FL.L` (R28). -/
def Flags.L (f : Flags) : Bool := f = .less

/-- `FL.G` (R28). -/
def Flags.G (f : Flags) : Bool := f = .greater

/-- FL as a byte: bit 0 = E, bit 1 = G, bit 2 = L, bits 7..3 zero (R28, R36; the spec's own decision D4, log 9). No
instruction reads it. -/
def Flags.toByte (f : Flags) : Byte :=
  (BitVec.ofBool f.E).setWidth 8 ||| (BitVec.ofBool f.G).setWidth 8 <<< 1 ||| (BitVec.ofBool f.L).setWidth 8 <<< 2

/-- What CMP sets, comparing its operands unsigned (R87). -/
def compareFlags (A B : Byte) : Flags :=
  if A.toNat = B.toNat then .equal else if A.toNat < B.toNat then .less else .greater

end Sys2Proof.Machine
end

