-- ==== Sys2Proof/Machine/Operands.lean ====
section
/-! DEFINITION. The operand forms (`30_encoding.md` R58 to R60): a register operand, two register operands, and LDI's
immediate, which is the operand byte as it stands. The register checks come before anything else an instruction does,
operand_a before operand_b (R67, R108; log 11). -/

namespace Sys2Proof.Machine

/-- The register a number names; none outside 0..7, and no reduction modulo 8 (R24). -/
def Reg.ofNat? : Nat → Option Reg
  | 0 => some .r0
  | 1 => some .r1
  | 2 => some .r2
  | 3 => some .r3
  | 4 => some .r4
  | 5 => some .r5
  | 6 => some .r6
  | 7 => some .r7
  | _ => none

/-- The operand byte that names a register (R20). -/
def Reg.byte : Reg → Byte
  | .r0 => 0
  | .r1 => 1
  | .r2 => 2
  | .r3 => 3
  | .r4 => 4
  | .r5 => 5
  | .r6 => 6
  | .r7 => 7

/-- An operand byte in the register role: its register, or AddressingError (R24, R59). -/
def regOperand (b : Byte) : Except ErrorKind Reg :=
  match Reg.ofNat? b.toNat with
  | some r => .ok r
  | none => .error .addressingError

/-- Two operand bytes in the register role, operand_a checked first (R67). -/
def regOperands (a b : Byte) : Except ErrorKind (Reg × Reg) := do
  let ra ← regOperand a
  let rb ← regOperand b
  .ok (ra, rb)

end Sys2Proof.Machine
end

