-- ==== Sys2Proof/Machine/Alu.lean ====
section
/-! DEFINITION. The ALU (`00_scope.md` R8) and the 13 ALU instructions (`40_alu.md` R73 to R88). Operands are read
before anything is written (R73), arithmetic is exact on integers and then narrowed to 8 bits (R15, R23). -/

namespace Sys2Proof.Machine

/-! ## The ALU's operations -/

/-- An integer modulo 256 (R23). -/
def narrow (n : Int) : Byte := BitVec.ofInt 8 n

/-- ADD's result (R74). -/
def aluAdd (A B : Byte) : Byte := narrow ((A.toNat : Int) + B.toNat)

/-- SUB's result: the difference as an integer, then modulo 256 (R75). -/
def aluSub (A B : Byte) : Byte := narrow ((A.toNat : Int) - B.toNat)

/-- MUL's result: the low 8 bits of the product (R76). -/
def aluMul (A B : Byte) : Byte := narrow ((A.toNat : Int) * B.toNat)

/-- DIV's result: the unsigned quotient, or DivisionByZero (R77). -/
def aluDiv (A B : Byte) : Except ErrorKind Byte :=
  if B = 0 then .error .divisionByZero else .ok (BitVec.ofNat 8 (A.toNat / B.toNat))

/-- MOD's result: the unsigned remainder, or DivisionByZero (R78). -/
def aluMod (A B : Byte) : Except ErrorKind Byte :=
  if B = 0 then .error .divisionByZero else .ok (BitVec.ofNat 8 (A.toNat % B.toNat))

/-- INC's result (R79). -/
def aluInc (A : Byte) : Byte := narrow ((A.toNat : Int) + 1)

/-- DEC's result (R80). -/
def aluDec (A : Byte) : Byte := narrow ((A.toNat : Int) - 1)

/-- AND's result (R81). -/
def aluAnd (A B : Byte) : Byte := A &&& B

/-- XOR's result (R82). -/
def aluXor (A B : Byte) : Byte := A ^^^ B

/-- NOT's result (R83). -/
def aluNot (A : Byte) : Byte := ~~~A

/-- The shift amount, `x[b]` masked (R84; the spec's own decision D6, log 8). -/
def shiftAmount (B : Byte) : Nat := (B &&& Config.shiftMask).toNat

/-- SHL's result: bits shifted out are lost (R85). -/
def aluShl (A B : Byte) : Byte := A <<< shiftAmount B

/-- SHR's result: a logical shift, zeros in (R86). -/
def aluShr (A B : Byte) : Byte := A >>> shiftAmount B

/-! ## The shapes of R73 -/

/-- A two-register ALU instruction whose result goes back to register `a` (R73): 3 bytes. -/
def binaryAlu (op : Byte → Byte → Except ErrorKind Byte) (a b : Byte) (s : State) : Result :=
  commit s do
    let (ra, rb) ← regOperands a b
    let v ← op (s.reg ra) (s.reg rb)
    .ok (advance 3 (s.setReg ra v))

/-- A one-register ALU instruction (R73): 2 bytes; operand_b is not read (D33). -/
def unaryAlu (op : Byte → Byte) (a : Byte) (s : State) : Result :=
  commit s do
    let ra ← regOperand a
    .ok (advance 2 (s.setReg ra (op (s.reg ra))))

/-! ## The instructions -/

/-- ADD (R74). -/
def execAdd (a b : Byte) (s : State) : Result := binaryAlu (fun A B => .ok (aluAdd A B)) a b s

/-- SUB (R75). -/
def execSub (a b : Byte) (s : State) : Result := binaryAlu (fun A B => .ok (aluSub A B)) a b s

/-- MUL (R76). -/
def execMul (a b : Byte) (s : State) : Result := binaryAlu (fun A B => .ok (aluMul A B)) a b s

/-- DIV (R77). -/
def execDiv (a b : Byte) (s : State) : Result := binaryAlu aluDiv a b s

/-- MOD (R78). -/
def execMod (a b : Byte) (s : State) : Result := binaryAlu aluMod a b s

/-- INC (R79). On R7 it moves the stack pointer with no bound check. -/
def execInc (a : Byte) (s : State) : Result := unaryAlu aluInc a s

/-- DEC (R80). On R7 it moves the stack pointer with no bound check. -/
def execDec (a : Byte) (s : State) : Result := unaryAlu aluDec a s

/-- AND (R81). -/
def execAnd (a b : Byte) (s : State) : Result := binaryAlu (fun A B => .ok (aluAnd A B)) a b s

/-- XOR (R82). -/
def execXor (a b : Byte) (s : State) : Result := binaryAlu (fun A B => .ok (aluXor A B)) a b s

/-- NOT (R83). -/
def execNot (a : Byte) (s : State) : Result := unaryAlu aluNot a s

/-- SHL (R85). -/
def execShl (a b : Byte) (s : State) : Result := binaryAlu (fun A B => .ok (aluShl A B)) a b s

/-- SHR (R86). -/
def execShr (a b : Byte) (s : State) : Result := binaryAlu (fun A B => .ok (aluShr A B)) a b s

/-- CMP (R87): writes all of FL, and no register. -/
def execCmp (a b : Byte) (s : State) : Result :=
  commit s do
    let (ra, rb) ← regOperands a b
    .ok (advance 3 (setFlags (compareFlags (s.reg ra) (s.reg rb)) s))

end Sys2Proof.Machine
end

