-- ==== Sys2Proof/Machine/Control.lean ====
section
/-! DEFINITION. The control transfers (`41_control_flow.md` R89 to R94). All five have `sets_pc = 1`: each sets the PC
on every path that raises no error (R69). -/

namespace Sys2Proof.Machine

/-- Branch to the register's value if `taken`, else go on past the 2-byte instruction (R91, R92; conflict C4). -/
def branch (taken : Bool) (target : Byte) (s : State) : State := if taken then jump target s else advance 2 s

/-- JMP (R90). -/
def execJmp (a : Byte) (s : State) : Result :=
  commit s do
    let ra ← regOperand a
    .ok (jump (s.reg ra) s)

/-- JEQ (R91). The register index is checked on both paths. -/
def execJeq (a : Byte) (s : State) : Result :=
  commit s do
    let ra ← regOperand a
    .ok (branch s.fl.E (s.reg ra) s)

/-- JNE (R92). The register index is checked on both paths. -/
def execJne (a : Byte) (s : State) : Result :=
  commit s do
    let ra ← regOperand a
    .ok (branch (!s.fl.E) (s.reg ra) s)

/-- CALL's return address, the address after its operand byte, as a byte; AddressingError where no byte holds it
(R93; the spec's own decision D16, log 11). -/
def returnAddress (s : State) : Except ErrorKind Byte :=
  if s.pc.toNat + 2 < Config.memSize then .ok (BitVec.ofNat 8 (s.pc.toNat + 2)) else .error .addressingError

/-- CALL (R93): the target is read before SP moves, the return address is checked before the stack bound. -/
def execCall (a : Byte) (s : State) : Result :=
  commit s do
    let ra ← regOperand a
    let ret ← returnAddress s
    let t ← push ret s
    .ok (jump (s.reg ra) t)

/-- RET (R94). -/
def execRet (s : State) : Result :=
  commit s do
    let (target, t) ← pop s
    .ok (jump target t)

end Sys2Proof.Machine
end

