-- ==== Sys2Proof/Machine/Data.lean ====
section
/-! DEFINITION. LDI, PRN and HLT (`43_data_io_system.md` R99 to R102). -/

namespace Sys2Proof.Machine

/-- LDI (R100): the immediate is operand_b as it stands, never checked. -/
def execLdi (a imm : Byte) (s : State) : Result :=
  commit s do
    let ra ← regOperand a
    .ok (advance 3 (s.setReg ra imm))

/-- PRN (R101). -/
def execPrn (a : Byte) (s : State) : Result :=
  commit s do
    let ra ← regOperand a
    .ok (advance 2 (emit (s.reg ra) s))

/-- HLT (R102): the PC moves past it, then the status becomes Halted. -/
def execHlt (s : State) : Result := commit s (.ok (halt (advance 1 s)))

end Sys2Proof.Machine
end

