-- ==== Sys2Proof/Machine/Stack.lean ====
section
/-! DEFINITION. PUSH and POP (`42_stack.md` R95 to R97). -/

namespace Sys2Proof.Machine

/-- PUSH (R96): the value is read before SP moves, so `PUSH R7` pushes the old SP. -/
def execPush (a : Byte) (s : State) : Result :=
  commit s do
    let ra ← regOperand a
    let t ← push (s.reg ra) s
    .ok (advance 2 t)

/-- POP (R97): the popped value is written last, so for `POP R7` it wins over the increment. -/
def execPop (a : Byte) (s : State) : Result :=
  commit s do
    let ra ← regOperand a
    let (v, t) ← pop s
    .ok (advance 2 (t.setReg ra v))

end Sys2Proof.Machine
end

