-- ==== Sys2Proof/Machine/Cycle.lean ====
section
/-! DEFINITION. One fetch-decode-execute cycle (`30_encoding.md` R67). -/

namespace Sys2Proof.Machine

/-- The bytes a fetch can read: those at `pc`, `pc + 1` and `pc + 2` that lie in memory (R42, R58). Reading has no side
effect (R46), so how many of them the instruction needs is left to the decoder (log 4). A PC past 255 gives none. -/
def fetchBytes (s : State) : List Byte :=
  (List.range Config.maxLen).filterMap fun k => (memRead (s.pc.toNat + k) s).toOption

/-- The step error a decoding error is: bytes past address 255 are AddressingError (R105 rows 3a, 3b), an unknown
opcode UnsupportedInstruction (row 1). -/
def fetchError : DecodeError → ErrorKind
  | .outOfBytes => .addressingError
  | .unsupported => .unsupportedInstruction

/-- Fetch and decode the instruction at `pc`. -/
def fetchInstr (s : State) : Except ErrorKind Instr :=
  match decode (fetchBytes s) with
  | .ok (i, _) => .ok i
  | .error e => .error (fetchError e)

/-- The step cycle of a running block (R67): fetch, decode, execute; an error in the fetch or the decoding is taken
as any other (R106). -/
def runCycle (s : State) : Result :=
  match fetchInstr s with
  | .ok i => exec i s
  | .error k => .next (takeError k s)

end Sys2Proof.Machine
end

