-- ==== Sys2Proof/Machine/Step.lean ====
section
/-! DEFINITION. `step()` (`70_reset_and_hazards.md` R124, `30_encoding.md` R67), and the placing of one instruction
where the next step fetches. -/

namespace Sys2Proof.Machine

/-- One step. Its result `Continue`, `Halted` or `Error(kind)` is the status of the state it answers (R31). -/
def step (s : State) : Host.Outcome State Fault Refusal :=
  match s.status with
  | .running => runCycle s
  | .halted => stoppedStep s
  | .error _ => stoppedStep s

/-- `s` with the instruction of `nbits` bits `w`, numbered as the opcode table numbers them, stored at `pc`. A step
fetches only while Running, so the status is made Running (log 5). -/
def State.withFetchWord (s : State) (nbits w : Nat) : State :=
  { s with mem := storeBytes s.mem s.pc.toNat (tableWordBytes nbits w), status := .running }

end Sys2Proof.Machine
end

