-- ==== Sys2Proof/Machine/HostOps.lean ====
section
/-! DEFINITION. The host interface (`70_reset_and_hazards.md` R121 to R127): `reset`, `load_program`, `step`, `run`,
`read_register`, `write_register`. Each acts between steps and is atomic (R121; log 13). -/

namespace Sys2Proof.Machine

/-! ## Results and their codes (`60_exceptions.md` R104) -/

/-- What `step` and `run` return to the host (R31, R124). -/
inductive StepResult where
  | continue
  | halted
  | error (kind : ErrorKind)
  deriving DecidableEq, Repr

/-- The result a step or a run returns, read off the status it leaves (R31). -/
def StepResult.ofStatus : Status → StepResult
  | .running => .continue
  | .halted => .halted
  | .error k => .error k

/-- The numeric code of a step error (R104; the spec's own decision D17, log 14). -/
def ErrorKind.code : ErrorKind → Nat
  | .unsupportedInstruction => 2
  | .divisionByZero => 3
  | .addressingError => 4

/-- The numeric code of a step result (R104). -/
def StepResult.code : StepResult → Nat
  | .continue => 0
  | .halted => 1
  | .error k => k.code

/-- What `load_program` returns (R123). -/
inductive LoadResult where
  | ok
  | programTooLarge
  deriving DecidableEq, Repr

/-- `ProgramTooLarge` has code 5; R104 gives no code to a load that succeeds. -/
def LoadResult.code : LoadResult → Option Nat
  | .ok => none
  | .programTooLarge => some 5

/-! ## The operations -/

/-- `reset()` (R122): memory is unchanged, and values already emitted are not taken back. -/
def hostReset (s : State) : State := { State.reset with mem := s.mem, out := s.out }

/-- `load_program(bytes)` (R123): the size check comes before any write. -/
def loadProgram (bytes : List Byte) (s : State) : LoadResult × State :=
  if Config.memSize < bytes.length then (.programTooLarge, s)
  else (.ok, { s with mem := storeBytes s.mem 0 bytes })

/-- The loop of `run` with `budget` steps left (R125): it stops at Halted, at an error, or when the budget is used up. -/
def runLoop : Nat → State → Result
  | 0, s => .next s
  | k + 1, s =>
    match step s with
    | .next t => if t.status = .running then runLoop k t else .next t
    | .fault r => .fault r
    | .refused r => .refused r

/-- `run(budget)` with a budget (R125). -/
def run (budget : Nat) (s : State) : Result := runLoop budget (startRun s)

/-- `run()` without a budget returns with the block in state `t` (R125): some number of steps reaches a stop. A program
that never stops has no such `t` (R129). -/
def RunEnds (s t : State) : Prop := ∃ n, run n s = .next t ∧ t.status ≠ .running

/-- `read_register(i)` (R126): AddressingError goes to the host, and no state changes. -/
def readRegister (i : Nat) (s : State) : Except ErrorKind Byte :=
  match Reg.ofNat? i with
  | some r => .ok (s.reg r)
  | none => .error .addressingError

/-- `write_register(i, v)` (R127): an index outside 0..7 is AddressingError to the host, with no new state. -/
def writeRegister (i : Nat) (v : Byte) (s : State) : Except ErrorKind State :=
  match Reg.ofNat? i with
  | some r => .ok (s.setReg r v)
  | none => .error .addressingError

end Sys2Proof.Machine
end

