-- ==== Sys2Proof/Safety.lean ====
section
/-! DEFINITION. The terms the claims are stated in: the invariant of `10_state.md` R38, the reachable states, what an
instruction may touch, and the frame predicates. -/

namespace Sys2Proof.Machine

/-! ## The invariant and the reachable states -/

/-- R38, for the parts the types do not already say: every memory cell is in 0..255, and `pc` is in 0..256. With them
the canonical form of memory, which is the model's choice and no word of R38 (log 6). -/
def State.Inv (s : State) : Prop := s.mem.wf ∧ s.pc.toNat ≤ 256

/-- The states the rules can reach: from construction (R120), by steps and by the host's operations (R121). -/
inductive Reachable : State → Prop
  | construction : Reachable State.reset
  | step {s t : State} : Reachable s → Machine.step s = .next t → Reachable t
  | reset {s : State} : Reachable s → Reachable (hostReset s)
  | load {s : State} (bytes : List Byte) : Reachable s → Reachable (loadProgram bytes s).2
  | run {s t : State} (budget : Nat) : Reachable s → Machine.run budget s = .next t → Reachable t
  | writeRegister {s t : State} (i : Nat) (v : Byte) :
      Reachable s → Machine.writeRegister i v s = .ok t → Reachable t

/-! ## The opcodes (`30_encoding.md` R62, R63, R69) -/

/-- The 13 opcodes of the ALU space (R63). -/
def aluOpcodes : List Byte :=
  [0x65, 0x66, 0x69, 0xA0, 0xA1, 0xA2, 0xA3, 0xA4, 0xA7, 0xA8, 0xAB, 0xAC, 0xAD]

/-- The 10 opcodes of the handler table (R63). -/
def handlerOpcodes : List Byte := [0x01, 0x11, 0x45, 0x46, 0x47, 0x50, 0x54, 0x55, 0x56, 0x82]

/-- The 23 supported opcodes (R62, R64). -/
def supportedOpcodes : List Byte := handlerOpcodes ++ aluOpcodes

/-- The opcodes of CALL, RET, JMP, JEQ and JNE, which place the PC themselves (R69). -/
def controlOpcodes : List Byte := [0x50, 0x11, 0x54, 0x55, 0x56]

/-! ## What an instruction may touch (`10_state.md` R25) -/

/-- The register an operand byte names, as a list: empty for a byte that names none. -/
def regsOfByte (b : Byte) : List Reg := (Reg.ofNat? b.toNat).toList

/-- The registers an instruction writes: R25's right column. -/
def regsWritten : Instr → List Reg
  | .hlt | .prn _ | .jmp _ | .jeq _ | .jne _ | .cmp _ _ => []
  | .ret | .push _ | .call _ => [.r7]
  | .pop a => .r7 :: regsOfByte a
  | .inc a | .dec a | .not a | .ldi a _ => regsOfByte a
  | .add a _ | .sub a _ | .mul a _ | .div a _ | .mod a _ | .and a _ | .xor a _ | .shl a _ | .shr a _ => regsOfByte a

/-- The registers an instruction reads: R25's middle column. -/
def regsRead : Instr → List Reg
  | .hlt | .ldi _ _ => []
  | .ret | .pop _ => [.r7]
  | .push a | .call a => .r7 :: regsOfByte a
  | .prn a | .jmp a | .jeq a | .jne a | .inc a | .dec a | .not a => regsOfByte a
  | .add a b | .sub a b | .mul a b | .div a b | .mod a b | .cmp a b | .and a b | .xor a b | .shl a b
  | .shr a b => regsOfByte a ++ regsOfByte b

/-- The address an instruction stores to in state `s`, if it has one: `SP - 1` for PUSH and CALL (`20_memory.md` R42),
as the stack controller computes it. -/
def storeAddress (i : Instr) (s : State) : Option Nat :=
  match i with
  | .push _ | .call _ => some (s.sp - 1).toNat
  | _ => none

/-! ## Frames -/

/-- Every register but those listed is unchanged. -/
def RegsSameBut (written : List Reg) (s t : State) : Prop := ∀ r, r ∉ written → t.reg r = s.reg r

/-- Every byte of memory reads as before. -/
def MemSame (s t : State) : Prop := ∀ addr, t.mem.read addr = s.mem.read addr

/-- Every byte of memory but the one at `addr` reads as before. -/
def MemSameBut (addr : Nat) (s t : State) : Prop := ∀ x, x ≠ addr → t.mem.read x = s.mem.read x

/-- An instruction runs in `s` and ends with status `Error(k)`. -/
def Raises (k : ErrorKind) (i : Instr) (s : State) : Prop := ∃ t, exec i s = .next t ∧ t.status = .error k

end Sys2Proof.Machine
end

