-- ==== Sys2Proof/Certificates/Slice0/Obligations.lean ====
section
/-! DEFINITION. The statements for the provers, one `def Obligations.<Name> : Prop` each, listed in OBLIGATIONS.json.
A statement marked as resting on a decision D<n> is about the spec's own choice, not the source's. -/

open Sys2Proof Sys2Proof.Machine

/-- Decoding the encoding of any instruction, with any bytes after it, gives it back and leaves those bytes.
Rests on: 30_encoding.md sections 1 to 3. -/
def Obligations.DecodeOfEncodeIsTheInstruction : Prop :=
  ∀ (i : Instr) (rest : List Byte), decode (encode i ++ rest) = .ok (i, rest)

/-- Whatever decodes is exactly the encoding of the instruction it decodes to: each byte string has one meaning.
Rests on: 30_encoding.md sections 1 to 4. -/
def Obligations.DecodedBytesAreTheEncoding : Prop :=
  ∀ (bytes rest : List Byte) (i : Instr), decode bytes = .ok (i, rest) → bytes = encode i ++ rest

/-- An instruction is 1 + op[7:6] bytes long, as encoded and as decoded; count 3 is unsupported (R66: decision D13, log 11).
Rests on: 30_encoding.md section 1 (opcode fields and length); 30_encoding.md section 4 (R66, decision D13, log 11). -/
def Obligations.InstructionLengthIsOnePlusCount : Prop :=
  (∀ i : Instr, (encode i).length = 1 + (opcode i).toNat / 64 ∧ (opcode i).toNat / 64 ≠ 3) ∧
  (∀ (op : Byte) (tail rest : List Byte) (i : Instr), decode (op :: tail) = .ok (i, rest) →
    (op :: tail).length = (1 + op.toNat / 64) + rest.length) ∧
  (∀ (op : Byte) (tail : List Byte), op.toNat / 64 = 3 → decode (op :: tail) = .error .unsupported)

/-- Every opcode byte outside the 23 raises UnsupportedInstruction when fetched; 233 of the 256 values, by count field.
Rests on: R64. -/
def Obligations.UnsupportedOpcodesRaiseUnsupportedInstruction : Prop :=
  (∀ s : State, s.status = .running → s.pc.toNat ≤ 255 →
    s.mem.read s.pc.toNat ∉ supportedOpcodes →
    ((s.mem.read s.pc.toNat).toNat / 64 = 3 ∨ s.pc.toNat + (s.mem.read s.pc.toNat).toNat / 64 ≤ 255) →
    ∃ t, step s = .next t ∧ t.status = .error .unsupportedInstruction) ∧
  ((List.range 256).filter fun n => BitVec.ofNat 8 n ∉ supportedOpcodes).length = 233 ∧
  ((List.range 256).filter fun n => BitVec.ofNat 8 n ∉ supportedOpcodes ∧ n / 64 = 0).length = 62 ∧
  ((List.range 256).filter fun n => BitVec.ofNat 8 n ∉ supportedOpcodes ∧ n / 64 = 1).length = 54 ∧
  ((List.range 256).filter fun n => BitVec.ofNat 8 n ∉ supportedOpcodes ∧ n / 64 = 2).length = 53 ∧
  ((List.range 256).filter fun n => BitVec.ofNat 8 n ∉ supportedOpcodes ∧ n / 64 = 3).length = 64

/-- Bit 5 of an opcode is set for exactly the 13 ALU opcodes, bit 4 for exactly CALL, RET, JMP, JEQ and JNE.
Rests on: 30_encoding.md section 3 (opcode map). -/
def Obligations.OpcodeBitsClassifyInstructions : Prop :=
  (∀ i : Instr, opcode i ∈ supportedOpcodes ∧
    (opIsAlu (opcode i) = true ↔ opcode i ∈ aluOpcodes) ∧
    (opIsAlu (opcode i) = false ↔ opcode i ∈ handlerOpcodes) ∧
    (opSetsPc (opcode i) = true ↔ opcode i ∈ controlOpcodes)) ∧
  (∀ i j : Instr, opcode i = opcode j → operands i = operands j → i = j)

/-- Words written out from the opcode map decode to the instructions they stand for.
Rests on: 30_encoding.md section 3 (opcode map). -/
def Obligations.SpecWordsDecodeToTheirInstructions : Prop :=
  decode [0b10100000, 0b00000000, 0b00000001] = .ok (.add 0 1, []) ∧
  decode [0b01100101, 0b00000011] = .ok (.inc 3, []) ∧
  decode [0b01010000, 0b00000001] = .ok (.call 1, []) ∧
  decode [0b00010001] = .ok (.ret, []) ∧
  decode [0b01000110, 0b00000111] = .ok (.pop 7, []) ∧
  decode [0b10000010, 0b00000101, 0b11111111] = .ok (.ldi 5 255, []) ∧
  decode [0b01000111, 0b00000010] = .ok (.prn 2, []) ∧
  decode [0b00000001] = .ok (.hlt, [])

/-- The operand bytes 0..7 name the eight registers, one each; an instruction is well-formed if and only if its register operands are such bytes.
Rests on: 10_state.md section 2 (general registers); 30_encoding.md section 2 (operand assembly). -/
def Obligations.RegisterOperandBytesAreZeroToSeven : Prop :=
  (∀ b : Byte, (∃ r : Reg, b = r.byte) ↔ b.toNat ≤ 7) ∧
  (∀ r r' : Reg, r.byte = r'.byte → r = r') ∧
  (Instr.hlt.wf = true ∧ Instr.ret.wf = true) ∧
  (∀ a : Byte, ∀ i ∈ [Instr.push a, .pop a, .prn a, .call a, .jmp a, .jeq a, .jne a, .inc a, .dec a, .not a],
    i.wf = true ↔ a.toNat ≤ 7) ∧
  (∀ a imm : Byte, (Instr.ldi a imm).wf = true ↔ a.toNat ≤ 7) ∧
  (∀ a b : Byte, ∀ i ∈ [Instr.add a b, .sub a b, .mul a b, .div a b, .mod a b, .cmp a b, .and a b, .xor a b,
      .shl a b, .shr a b],
    i.wf = true ↔ a.toNat ≤ 7 ∧ b.toNat ≤ 7)

/-- When the bytes at pc decode to an instruction, a running step is exec of that instruction.
Rests on: 30_encoding.md section 5 (step cycle). -/
def Obligations.StepExecutesTheDecodedInstruction : Prop :=
  ∀ (s : State) (i : Instr) (rest : List Byte), s.status = .running → decode (fetchBytes s) = .ok (i, rest) →
    step s = exec i s

/-- When an instruction's encoding lies in memory at pc, a running step is exec of that instruction.
Rests on: 30_encoding.md section 5 (step cycle); 20_memory.md sections 2 and 3. -/
def Obligations.StepExecutesTheInstructionStoredAtPc : Prop :=
  ∀ (s : State) (i : Instr), s.status = .running →
    (∀ (k : Nat) (hk : k < (encode i).length),
      s.pc.toNat + k ≤ 255 ∧ s.mem.read (s.pc.toNat + k) = (encode i)[k]) →
    step s = exec i s

/-- Fetch errors come in the order of the cycle: opcode address, count 3, operand address, unknown opcode (D14).
Rests on: 60_exceptions.md section 2 (R108's list, decision D14); 30_encoding.md section 5 (step cycle); 92_eei_decisions.md D1, D10, D13. -/
def Obligations.StepReportsTheFirstErrorOfTheCycle : Prop :=
  ∀ s : State, s.status = .running →
    (255 < s.pc.toNat → step s = .next { s with status := .error .addressingError }) ∧
    (s.pc.toNat ≤ 255 → (s.mem.read s.pc.toNat).toNat / 64 = 3 →
      step s = .next { s with status := .error .unsupportedInstruction }) ∧
    (s.pc.toNat ≤ 255 → (s.mem.read s.pc.toNat).toNat / 64 ≠ 3 →
      255 < s.pc.toNat + (s.mem.read s.pc.toNat).toNat / 64 →
      step s = .next { s with status := .error .addressingError }) ∧
    ((s.mem.read s.pc.toNat).toNat / 64 ≠ 3 → s.pc.toNat + (s.mem.read s.pc.toNat).toNat / 64 ≤ 255 →
      s.mem.read s.pc.toNat ∉ supportedOpcodes →
      step s = .next { s with status := .error .unsupportedInstruction }) ∧
    (s.pc.toNat + (s.mem.read s.pc.toNat).toNat / 64 ≤ 255 → s.mem.read s.pc.toNat ∈ supportedOpcodes →
      ∃ i, opcode i = s.mem.read s.pc.toNat ∧ step s = exec i s)

/-- An instruction with a register operand of 8..255 raises AddressingError before anything else (D10, D15).
Rests on: 10_state.md section 2 (register index check, decision D15); 60_exceptions.md section 2 (decisions D10, D14). -/
def Obligations.IllegalRegisterOperandRaisesAddressingError : Prop :=
  ∀ (i : Instr) (s : State), i.wf = false →
    exec i s = .next { s with status := .error .addressingError }

/-- A running step that ends in Error(kind) changes nothing but the status; pc stays at the faulting instruction (D10).
Rests on: 60_exceptions.md section 2 (what an error does, decision D10). -/
def Obligations.ErrorStepChangesOnlyTheStatus : Prop :=
  ∀ (s t : State) (k : ErrorKind), s.status = .running → step s = .next t → t.status = .error k →
    t = { s with status := .error k }

/-- Every step answers a next state: no fault, no refusal (errors are a status, the model's choice of log 1).
Rests on: 60_exceptions.md sections 2 and 3; 10_state.md section 5 (run status). -/
def Obligations.EveryStepAnswersNextState : Prop :=
  ∀ s : State, ∃ t, step s = .next t

/-- A block that is Halted or in Error stays so: any number of steps changes nothing (D11).
Rests on: 60_exceptions.md section 3 and section 6 (decision D11). -/
def Obligations.StoppedBlockStaysStopped : Prop :=
  ∀ (n : Nat) (s : State), s.status ≠ .running → core.run n s = .next s

/-- A running step ends Halted only by executing HLT, and leaves Running only by HLT or an error.
Rests on: 43_data_io_system.md (opening of the common rules); 10_state.md section 5 (run status). -/
def Obligations.OnlyHltHalts : Prop :=
  ∀ s t : State, s.status = .running → step s = .next t →
    (t.status = .halted → ∃ rest, decode (fetchBytes s) = .ok (.hlt, rest)) ∧
    (∀ i rest, decode (fetchBytes s) = .ok (i, rest) → i ≠ .hlt → t.status = .running ∨ ∃ k, t.status = .error k)

/-- No instruction but CMP changes FL; a CMP of two registers leaves exactly one of E, L and G set.
Rests on: 10_state.md section 4 (flags register). -/
def Obligations.OnlyCmpWritesFlags : Prop :=
  (∀ (i : Instr) (s t : State), (∀ a b, i ≠ .cmp a b) → exec i s = .next t → t.fl = s.fl) ∧
  (∀ (a b : Reg) (s : State), ∃ t, exec (.cmp a.byte b.byte) s = .next t ∧
    [t.fl.E, t.fl.L, t.fl.G].count true = 1)

/-- FL influences no instruction but JEQ and JNE, and those only through E.
Rests on: R30. -/
def Obligations.OnlyJeqAndJneReadFlagsAndOnlyE : Prop :=
  ∀ (i : Instr) (s : State) (f : Flags),
    ((∀ a, i ≠ .jeq a ∧ i ≠ .jne a) ∨ f.E = s.fl.E) →
    ∃ t u, exec i s = .next t ∧ exec i { s with fl := f } = .next u ∧ { u with fl := t.fl } = t ∧
      ∀ a b : Reg, i = .cmp a.byte b.byte → u = t

/-- Only PUSH and CALL write memory, and only the cell at SP - 1.
Rests on: 20_memory.md section 2 (access table); 90_conflicts.md C1. -/
def Obligations.MemoryWrittenOnlyAtTheStoreAddress : Prop :=
  ∀ (i : Instr) (s t : State), exec i s = .next t →
    (∀ addr, storeAddress i s ≠ some addr → t.mem.read addr = s.mem.read addr) ∧
    (∀ k, s.status = .running → t.status = .error k → MemSame s t)

/-- An instruction writes no register but those of its row in the table of reads and writes.
Rests on: 10_state.md section 2 (table of register reads and writes). -/
def Obligations.RegistersWrittenOnlyAsTabled : Prop :=
  ∀ (i : Instr) (s t : State), exec i s = .next t → RegsSameBut (regsWritten i) s t

/-- A register outside an instruction's 'registers read' column has no influence on it (R5 and R6 included).
Rests on: 10_state.md section 2 (table of register reads and writes; R5 and R6, decision D22). -/
def Obligations.RegistersNotReadDoNotMatter : Prop :=
  ∀ (i : Instr) (s : State) (r : Reg) (v : Byte), r ∉ regsRead i →
    ∃ t u, exec i s = .next t ∧ exec i (s.setReg r v) = .next u ∧ u.setReg r (t.reg r) = t ∧
      (r ∈ regsWritten i → (∀ k, t.status ≠ .error k) → u = t)

/-- An instruction whose opcode has sets_pc = 0 moves pc on by 1 + count unless it raises an error.
Rests on: 30_encoding.md section 5 (PC sequencer, decision D12 for HLT); 10_state.md section 3 (decision D1). -/
def Obligations.SequentialInstructionsAdvancePcByTheirLength : Prop :=
  ∀ (i : Instr) (s t : State), opSetsPc (opcode i) = false → exec i s = .next t → (∀ k, t.status ≠ .error k) →
    t.pc = s.pc + BitVec.ofNat 9 (1 + (opcode i).toNat / 64)

/-- Only PRN of a register puts a value on the output port, one byte, after all earlier ones (record: log 2).
Rests on: 10_state.md section 5 (output port); log 2 (the record of the output port is the model's own field). -/
def Obligations.OnlyPrnEmits : Prop :=
  ∀ (i : Instr) (s t : State), exec i s = .next t →
    t.out = s.out ∨ ∃ a : Reg, i = .prn a.byte ∧ t.out = s.out ++ [s.reg a]

/-- ADD writes (x[a] + x[b]) mod 256 to register a.
Rests on: R74. -/
def Obligations.AddWritesSumModulo256 : Prop :=
  (∀ a b : Byte, decode [0xA0, a, b] = .ok (.add a b, [])) ∧
  (∀ (a b : Reg) (s : State), ∃ t, exec (.add a.byte b.byte) s = .next t ∧
    (t.reg a).toNat = ((s.reg a).toNat + (s.reg b).toNat) % 256 ∧
    t.pc = s.pc + 3 ∧ RegsSameBut [a] s t ∧ t.fl = s.fl ∧ t.status = s.status ∧ MemSame s t) ∧
  (∀ (a b : Byte) (s : State), 7 < a.toNat ∨ 7 < b.toNat → Raises .addressingError (.add a b) s)

/-- SUB writes (x[a] - x[b]) mod 256 to register a.
Rests on: R75. -/
def Obligations.SubWritesDifferenceModulo256 : Prop :=
  (∀ a b : Byte, decode [0xA1, a, b] = .ok (.sub a b, [])) ∧
  (∀ (a b : Reg) (s : State), ∃ t, exec (.sub a.byte b.byte) s = .next t ∧
    ((t.reg a).toNat : Int) = (((s.reg a).toNat : Int) - (s.reg b).toNat) % 256 ∧
    t.pc = s.pc + 3 ∧ RegsSameBut [a] s t ∧ t.fl = s.fl ∧ t.status = s.status ∧ MemSame s t) ∧
  (∀ (a b : Byte) (s : State), 7 < a.toNat ∨ 7 < b.toNat → Raises .addressingError (.sub a b) s)

/-- MUL writes the low 8 bits of x[a] * x[b] to register a.
Rests on: R76. -/
def Obligations.MulWritesLowByteOfProduct : Prop :=
  (∀ a b : Byte, decode [0xA2, a, b] = .ok (.mul a b, [])) ∧
  (∀ (a b : Reg) (s : State), ∃ t, exec (.mul a.byte b.byte) s = .next t ∧
    (t.reg a).toNat = (s.reg a).toNat * (s.reg b).toNat % 256 ∧
    t.pc = s.pc + 3 ∧ RegsSameBut [a] s t ∧ t.fl = s.fl ∧ t.status = s.status ∧ MemSame s t) ∧
  (∀ (a b : Byte) (s : State), 7 < a.toNat ∨ 7 < b.toNat → Raises .addressingError (.mul a b) s)

/-- DIV writes the unsigned quotient, or raises DivisionByZero and writes nothing.
Rests on: R77. -/
def Obligations.DivWritesQuotientOrRaisesDivisionByZero : Prop :=
  (∀ a b : Byte, decode [0xA3, a, b] = .ok (.div a b, [])) ∧
  (∀ (a b : Reg) (s : State), s.reg b ≠ 0 → ∃ t, exec (.div a.byte b.byte) s = .next t ∧
    (t.reg a).toNat = (s.reg a).toNat / (s.reg b).toNat ∧
    t.pc = s.pc + 3 ∧ RegsSameBut [a] s t ∧ t.fl = s.fl ∧ t.status = s.status ∧ MemSame s t) ∧
  (∀ (a b : Reg) (s : State), s.reg b = 0 → ∃ t, exec (.div a.byte b.byte) s = .next t ∧
    t.status = .error .divisionByZero ∧ RegsSameBut [] s t ∧ t.pc = s.pc) ∧
  (∀ (a b : Byte) (s : State), 7 < a.toNat ∨ 7 < b.toNat → Raises .addressingError (.div a b) s)

/-- MOD writes the unsigned remainder, or raises DivisionByZero and writes nothing.
Rests on: R78. -/
def Obligations.ModWritesRemainderOrRaisesDivisionByZero : Prop :=
  (∀ a b : Byte, decode [0xA4, a, b] = .ok (.mod a b, [])) ∧
  (∀ (a b : Reg) (s : State), s.reg b ≠ 0 → ∃ t, exec (.mod a.byte b.byte) s = .next t ∧
    (t.reg a).toNat = (s.reg a).toNat % (s.reg b).toNat ∧ (s.reg a).toNat / (s.reg b).toNat * (s.reg b).toNat + (t.reg a).toNat = (s.reg a).toNat ∧
    t.pc = s.pc + 3 ∧ RegsSameBut [a] s t ∧ t.fl = s.fl ∧ t.status = s.status ∧ MemSame s t) ∧
  (∀ (a b : Reg) (s : State), s.reg b = 0 → ∃ t, exec (.mod a.byte b.byte) s = .next t ∧
    t.status = .error .divisionByZero ∧ RegsSameBut [] s t ∧ t.pc = s.pc) ∧
  (∀ (a b : Byte) (s : State), 7 < a.toNat ∨ 7 < b.toNat → Raises .addressingError (.mod a b) s)

/-- INC adds one modulo 256 to its register.
Rests on: R79. -/
def Obligations.IncAddsOneModulo256 : Prop :=
  (∀ a : Byte, decode [0x65, a] = .ok (.inc a, [])) ∧
  (∀ (a : Reg) (s : State), ∃ t, exec (.inc a.byte) s = .next t ∧
    (t.reg a).toNat = ((s.reg a).toNat + 1) % 256 ∧
    t.pc = s.pc + 2 ∧ RegsSameBut [a] s t ∧ t.fl = s.fl ∧ t.status = s.status ∧ MemSame s t) ∧
  (∀ (a : Byte) (s : State), 7 < a.toNat → Raises .addressingError (.inc a) s)

/-- DEC subtracts one modulo 256 from its register.
Rests on: R80. -/
def Obligations.DecSubtractsOneModulo256 : Prop :=
  (∀ a : Byte, decode [0x66, a] = .ok (.dec a, [])) ∧
  (∀ (a : Reg) (s : State), ∃ t, exec (.dec a.byte) s = .next t ∧
    ((t.reg a).toNat : Int) = (((s.reg a).toNat : Int) - 1) % 256 ∧
    t.pc = s.pc + 2 ∧ RegsSameBut [a] s t ∧ t.fl = s.fl ∧ t.status = s.status ∧ MemSame s t) ∧
  (∀ (a : Byte) (s : State), 7 < a.toNat → Raises .addressingError (.dec a) s)

/-- AND writes the bitwise and of its registers to register a.
Rests on: R81. -/
def Obligations.AndWritesBitwiseAnd : Prop :=
  (∀ a b : Byte, decode [0xA8, a, b] = .ok (.and a b, [])) ∧
  (∀ (a b : Reg) (s : State), ∃ t, exec (.and a.byte b.byte) s = .next t ∧
    (∀ k, k < 8 → (t.reg a).getLsbD k = ((s.reg a).getLsbD k && (s.reg b).getLsbD k)) ∧
    t.pc = s.pc + 3 ∧ RegsSameBut [a] s t ∧ t.fl = s.fl ∧ t.status = s.status ∧ MemSame s t) ∧
  (∀ (a b : Byte) (s : State), 7 < a.toNat ∨ 7 < b.toNat → Raises .addressingError (.and a b) s)

/-- XOR writes the bitwise exclusive or of its registers to register a.
Rests on: R82. -/
def Obligations.XorWritesBitwiseExclusiveOr : Prop :=
  (∀ a b : Byte, decode [0xAB, a, b] = .ok (.xor a b, [])) ∧
  (∀ (a b : Reg) (s : State), ∃ t, exec (.xor a.byte b.byte) s = .next t ∧
    (∀ k, k < 8 → (t.reg a).getLsbD k = ((s.reg a).getLsbD k ^^ (s.reg b).getLsbD k)) ∧
    t.pc = s.pc + 3 ∧ RegsSameBut [a] s t ∧ t.fl = s.fl ∧ t.status = s.status ∧ MemSame s t) ∧
  (∀ (a b : Byte) (s : State), 7 < a.toNat ∨ 7 < b.toNat → Raises .addressingError (.xor a b) s)

/-- NOT writes 255 - x[a] to its register.
Rests on: R83. -/
def Obligations.NotWritesComplement : Prop :=
  (∀ a : Byte, decode [0x69, a] = .ok (.not a, [])) ∧
  (∀ (a : Reg) (s : State), ∃ t, exec (.not a.byte) s = .next t ∧
    (t.reg a).toNat = 255 - (s.reg a).toNat ∧
    t.pc = s.pc + 2 ∧ RegsSameBut [a] s t ∧ t.fl = s.fl ∧ t.status = s.status ∧ MemSame s t) ∧
  (∀ (a : Byte) (s : State), 7 < a.toNat → Raises .addressingError (.not a) s)

/-- SHL writes x[a] << (x[b] & 7), modulo 256 (mask: the spec's own decision D6, log 8).
Rests on: 40_alu.md section Bitwise (shift amount and SHL); 92_eei_decisions.md D6. -/
def Obligations.ShlShiftsLeftByMaskedAmount : Prop :=
  (∀ a b : Byte, decode [0xAC, a, b] = .ok (.shl a b, [])) ∧
  (∀ (a b : Reg) (s : State), ∃ t, exec (.shl a.byte b.byte) s = .next t ∧
    (t.reg a).toNat = (s.reg a).toNat * 2 ^ ((s.reg b).toNat % 8) % 256 ∧
    t.pc = s.pc + 3 ∧ RegsSameBut [a] s t ∧ t.fl = s.fl ∧ t.status = s.status ∧ MemSame s t) ∧
  (∀ (a b : Byte) (s : State), 7 < a.toNat ∨ 7 < b.toNat → Raises .addressingError (.shl a b) s)

/-- SHR writes x[a] >> (x[b] & 7), zeros in (mask: the spec's own decision D6, log 8).
Rests on: 40_alu.md section Bitwise (shift amount and SHR); 92_eei_decisions.md D6. -/
def Obligations.ShrShiftsRightByMaskedAmount : Prop :=
  (∀ a b : Byte, decode [0xAD, a, b] = .ok (.shr a b, [])) ∧
  (∀ (a b : Reg) (s : State), ∃ t, exec (.shr a.byte b.byte) s = .next t ∧
    (t.reg a).toNat = (s.reg a).toNat / 2 ^ ((s.reg b).toNat % 8) ∧
    t.pc = s.pc + 3 ∧ RegsSameBut [a] s t ∧ t.fl = s.fl ∧ t.status = s.status ∧ MemSame s t) ∧
  (∀ (a b : Byte) (s : State), 7 < a.toNat ∨ 7 < b.toNat → Raises .addressingError (.shr a b) s)

/-- CMP sets E, L or G by the unsigned comparison of x[a] and x[b], and writes no register.
Rests on: R87. -/
def Obligations.CmpSetsTheFlagOfItsComparison : Prop :=
  (∀ a b : Byte, decode [0xA7, a, b] = .ok (.cmp a b, [])) ∧
  (∀ (a b : Reg) (s : State), ∃ t, exec (.cmp a.byte b.byte) s = .next t ∧
    (t.fl.E = true ↔ (s.reg a).toNat = (s.reg b).toNat) ∧ (t.fl.L = true ↔ (s.reg a).toNat < (s.reg b).toNat) ∧
    (t.fl.G = true ↔ (s.reg b).toNat < (s.reg a).toNat) ∧ [t.fl.E, t.fl.L, t.fl.G].count true = 1 ∧
    t.pc = s.pc + 3 ∧ RegsSameBut [] s t ∧ t.status = s.status ∧ MemSame s t) ∧
  (∀ (a b : Byte) (s : State), 7 < a.toNat ∨ 7 < b.toNat → Raises .addressingError (.cmp a b) s)

/-- JMP sets pc to x[a]; registers, flags, memory and status stay as they were.
Rests on: R90. -/
def Obligations.JmpGoesToTheRegisterValue : Prop :=
  (∀ a : Byte, decode [0x54, a] = .ok (.jmp a, [])) ∧
  (∀ (a : Reg) (s : State), ∃ t, exec (.jmp a.byte) s = .next t ∧ t.pc.toNat = (s.reg a).toNat ∧
    RegsSameBut [] s t ∧ t.fl = s.fl ∧ t.status = s.status ∧ MemSame s t) ∧
  (∀ (a : Byte) (s : State), 7 < a.toNat → Raises .addressingError (.jmp a) s)

/-- JEQ jumps to x[a] if E is set, else goes on at pc0 + 2.
Rests on: 41_control_flow.md section Jumps; 90_conflicts.md C4; 92_eei_decisions.md D15. -/
def Obligations.JeqJumpsExactlyWhenEqual : Prop :=
  (∀ a : Byte, decode [0x55, a] = .ok (.jeq a, [])) ∧
  (∀ (a : Reg) (s : State), ∃ t, exec (.jeq a.byte) s = .next t ∧
    (s.fl.E = true → t.pc.toNat = (s.reg a).toNat) ∧ (s.fl.E = false → t.pc = s.pc + 2) ∧
    RegsSameBut [] s t ∧ t.fl = s.fl ∧ t.status = s.status ∧ t.out = s.out ∧ MemSame s t) ∧
  (∀ (a : Byte) (s : State), 7 < a.toNat → Raises .addressingError (.jeq a) s)

/-- JNE jumps to x[a] if E is clear, else goes on at pc0 + 2.
Rests on: 41_control_flow.md section Jumps; 90_conflicts.md C4; 92_eei_decisions.md D15. -/
def Obligations.JneJumpsExactlyWhenNotEqual : Prop :=
  (∀ a : Byte, decode [0x56, a] = .ok (.jne a, [])) ∧
  (∀ (a : Reg) (s : State), ∃ t, exec (.jne a.byte) s = .next t ∧
    (s.fl.E = false → t.pc.toNat = (s.reg a).toNat) ∧ (s.fl.E = true → t.pc = s.pc + 2) ∧
    RegsSameBut [] s t ∧ t.fl = s.fl ∧ t.status = s.status ∧ t.out = s.out ∧ MemSame s t) ∧
  (∀ (a : Byte) (s : State), 7 < a.toNat → Raises .addressingError (.jne a) s)

/-- CALL stores pc0 + 2 at SP - 1, moves SP there and jumps to the old x[a], or raises AddressingError.
Rests on: 41_control_flow.md section Call and return; 42_stack.md (stack bounds); 92_eei_decisions.md D7, D9, D10, D16. -/
def Obligations.CallPushesReturnAddressAndJumps : Prop :=
  (∀ a : Byte, decode [0x50, a] = .ok (.call a, [])) ∧
  (∀ (a : Reg) (s : State), s.pc.toNat + 2 ≤ 255 → s.sp ≠ 0 → ∃ t, exec (.call a.byte) s = .next t ∧
    t.pc.toNat = (s.reg a).toNat ∧ t.sp.toNat = s.sp.toNat - 1 ∧
    storeAddress (.call a.byte) s = some (s.sp.toNat - 1) ∧
    (∀ addr, storeAddress (.call a.byte) s = some addr →
      (t.mem.read addr).toNat = s.pc.toNat + 2 ∧ MemSameBut addr s t) ∧
    RegsSameBut [.r7] s t ∧ t.fl = s.fl ∧ t.status = s.status ∧ t.out = s.out) ∧
  (∀ (a : Reg) (s : State), 255 < s.pc.toNat + 2 ∨ s.sp = 0 →
    exec (.call a.byte) s = .next { s with status := .error .addressingError })

/-- RET sets pc to the byte at SP and moves SP up, or raises AddressingError at SP = 255.
Rests on: 41_control_flow.md section Call and return; 42_stack.md (stack bounds); 92_eei_decisions.md D9, D10, D29. -/
def Obligations.RetPopsPcFromTheStack : Prop :=
  decode [0x11] = .ok (.ret, []) ∧
  (∀ s : State, s.sp ≠ 255 → ∃ t, exec .ret s = .next t ∧
    t.pc.toNat = (s.mem.read s.sp.toNat).toNat ∧ t.sp.toNat = s.sp.toNat + 1 ∧
    RegsSameBut [.r7] s t ∧ t.fl = s.fl ∧ t.status = s.status ∧ t.out = s.out ∧ MemSame s t) ∧
  (∀ s : State, s.sp = 255 → exec .ret s = .next { s with status := .error .addressingError })

/-- PUSH stores the old x[a] at SP - 1 and moves SP there, or raises AddressingError at SP = 0.
Rests on: 42_stack.md (stack bounds and PUSH); 92_eei_decisions.md D7, D9, D10. -/
def Obligations.PushStoresTheRegisterBelowSp : Prop :=
  (∀ a : Byte, decode [0x45, a] = .ok (.push a, [])) ∧
  (∀ (a : Reg) (s : State), s.sp ≠ 0 → ∃ t, exec (.push a.byte) s = .next t ∧
    t.pc = s.pc + 2 ∧ t.sp.toNat = s.sp.toNat - 1 ∧
    storeAddress (.push a.byte) s = some (s.sp.toNat - 1) ∧
    (∀ addr, storeAddress (.push a.byte) s = some addr → t.mem.read addr = s.reg a ∧ MemSameBut addr s t) ∧
    RegsSameBut [.r7] s t ∧ t.fl = s.fl ∧ t.status = s.status ∧ t.out = s.out) ∧
  (∀ (a : Reg) (s : State), s.sp = 0 → exec (.push a.byte) s = .next { s with status := .error .addressingError })

/-- POP writes the byte at SP to x[a] and moves SP up (for R7 the popped byte wins), or raises AddressingError.
Rests on: 42_stack.md (stack bounds and POP); 92_eei_decisions.md D8, D9, D10. -/
def Obligations.PopLoadsTheByteAtSp : Prop :=
  (∀ a : Byte, decode [0x46, a] = .ok (.pop a, [])) ∧
  (∀ (a : Reg) (s : State), s.sp ≠ 255 → ∃ t, exec (.pop a.byte) s = .next t ∧
    t.reg a = s.mem.read s.sp.toNat ∧ (a ≠ .r7 → t.sp.toNat = s.sp.toNat + 1) ∧
    t.pc = s.pc + 2 ∧ RegsSameBut [.r7, a] s t ∧ t.fl = s.fl ∧ t.status = s.status ∧ t.out = s.out ∧ MemSame s t) ∧
  (∀ (a : Reg) (s : State), s.sp = 255 → exec (.pop a.byte) s = .next { s with status := .error .addressingError })

/-- LDI writes its immediate byte to register a, any value; PRN of that register then emits it.
Rests on: 43_data_io_system.md (LDI); 30_encoding.md section 2 (operand assembly); log 2 (the record of the output port is the model's own field). -/
def Obligations.LdiLoadsTheImmediate : Prop :=
  (∀ a imm : Byte, decode [0x82, a, imm] = .ok (.ldi a imm, [])) ∧
  (∀ (a : Reg) (imm : Byte) (s : State), ∃ t, exec (.ldi a.byte imm) s = .next t ∧ t.reg a = imm ∧
    t.pc = s.pc + 3 ∧ RegsSameBut [a] s t ∧ t.fl = s.fl ∧ t.status = s.status ∧ t.out = s.out ∧ MemSame s t ∧
    ∃ u, exec (.prn a.byte) t = .next u ∧ u.out = s.out ++ [imm]) ∧
  (∀ (a imm : Byte) (s : State), 7 < a.toNat → Raises .addressingError (.ldi a imm) s) ∧
  (∀ s : State, s.status = .running → (s.pc.toNat = 254 ∨ s.pc.toNat = 255) → s.mem.read s.pc.toNat = 0x82 →
    ∃ t, step s = .next t ∧ t.status = .error .addressingError)

/-- PRN emits x[a] and changes nothing but pc (record of emitted values: the model's choice, log 2).
Rests on: 43_data_io_system.md (PRN); 10_state.md section 5 (output port); log 2 (the record of the output port is the model's own field). -/
def Obligations.PrnEmitsTheRegister : Prop :=
  (∀ a : Byte, decode [0x47, a] = .ok (.prn a, [])) ∧
  (∀ (a : Reg) (s : State), ∃ t, exec (.prn a.byte) s = .next t ∧ t.out = s.out ++ [s.reg a] ∧
    t.pc = s.pc + 2 ∧ RegsSameBut [] s t ∧ t.fl = s.fl ∧ t.status = s.status ∧ MemSame s t) ∧
  (∀ (a : Byte) (s : State), 7 < a.toNat → ∃ t, exec (.prn a) s = .next t ∧
    t.status = .error .addressingError ∧ t.out = s.out)

/-- HLT moves pc on by 1, sets the status to Halted and changes nothing else (D12).
Rests on: 43_data_io_system.md (HLT); 92_eei_decisions.md D12. -/
def Obligations.HltHaltsPastItself : Prop :=
  decode [0x01] = .ok (.hlt, []) ∧
  (∀ s : State, ∃ t, exec .hlt s = .next t ∧ t.status = .halted ∧ t.pc = s.pc + 1 ∧
    RegsSameBut [] s t ∧ t.fl = s.fl ∧ t.out = s.out ∧ MemSame s t)

/-- A POP that finds SP and the pushed cell as PUSH left them restores the pushed value and the old SP.
Rests on: 42_stack.md (stack laws); 92_eei_decisions.md D7, D8. -/
def Obligations.PopAfterPushRestoresValueAndSp : Prop :=
  ∀ (a : Reg) (s : State), s.sp ≠ 0 → ∃ t, exec (.push a.byte) s = .next t ∧
    ∀ u : State, u.sp = t.sp → u.mem.read t.sp.toNat = t.mem.read t.sp.toNat →
      ∃ v, exec (.pop a.byte) u = .next v ∧ v.reg a = s.reg a ∧ v.sp = s.sp

/-- A RET that finds SP and the pushed cell as CALL left them goes to CALL's pc0 + 2 and restores SP.
Rests on: 41_control_flow.md section Call and return; 42_stack.md (stack laws); 95_test_vectors.md W6. -/
def Obligations.RetAfterCallReturnsPastTheCall : Prop :=
  ∀ (a : Reg) (s : State), s.pc.toNat + 2 ≤ 255 → s.sp ≠ 0 → ∃ t, exec (.call a.byte) s = .next t ∧
    ∀ u : State, u.sp = t.sp → u.mem.read t.sp.toNat = t.mem.read t.sp.toNat →
      ∃ v, exec .ret u = .next v ∧ v.pc.toNat = s.pc.toNat + 2 ∧ v.sp = s.sp

/-- Two pushes and two pops give the second value and then the first, and restore SP.
Rests on: 42_stack.md (stack laws). -/
def Obligations.StackIsLastInFirstOut : Prop :=
  ∀ (a b c d : Reg) (s : State), 2 ≤ s.sp.toNat → c ≠ .r7 → d ≠ .r7 → c ≠ d →
    ∃ s1 s2 s3 s4, exec (.push a.byte) s = .next s1 ∧ exec (.push b.byte) s1 = .next s2 ∧
      exec (.pop c.byte) s2 = .next s3 ∧ exec (.pop d.byte) s3 = .next s4 ∧
      s4.reg c = s1.reg b ∧ s4.reg d = s.reg a ∧ s4.sp = s.sp

/-- MemRead and MemWrite move one byte at 0..255 and raise AddressingError elsewhere, changing nothing.
Rests on: R41. -/
def Obligations.MemoryPrimitivesAreRangeChecked : Prop :=
  ∀ (addr : Nat) (v : Byte) (s : State),
    (addr ≤ 255 → memRead addr s = .ok (s.mem.read addr) ∧
      ∃ t, memWrite addr v s = .ok t ∧ memRead addr t = .ok v ∧ MemSameBut addr s t ∧
        RegsSameBut [] s t ∧ t.pc = s.pc ∧ t.fl = s.fl ∧ t.status = s.status) ∧
    (255 < addr → memRead addr s = .error .addressingError ∧ memWrite addr v s = .error .addressingError ∧
      ∃ t, commit s (memWrite addr v s) = .next t ∧ t.status = .error .addressingError ∧ MemSame s t)

/-- Two memories in canonical form that read the same at every address are the same list (form: log 6).
Rests on: 10_state.md section 5 (memory array); log 6 (the form memory is held in). -/
def Obligations.CanonicalMemoriesThatReadAlikeAreEqual : Prop :=
  ∀ m m' : Memory, m.wf → m'.wf → (∀ addr, addr ≤ 255 → m.read addr = m'.read addr) → m = m'

/-- A PUSH into the cell the next fetch reads is seen by that fetch (D24).
Rests on: 20_memory.md section 8 (decision D24). -/
def Obligations.NextFetchSeesThePushedByte : Prop :=
  ∀ (a : Reg) (s : State), s.sp ≠ 0 → s.sp.toNat - 1 = s.pc.toNat + 2 →
    ∃ t tail, exec (.push a.byte) s = .next t ∧ fetchBytes t = s.reg a :: tail

/-- The invariant (canonical memory in 0..255, pc in 0..256) holds after construction and after reset() (form: log 6).
Rests on: 10_state.md sections 7 and 8; log 6 (the canonical form memory is held in). -/
def Obligations.ResetStateSatisfiesInvariant : Prop :=
  State.reset.Inv ∧ ∀ s : State, s.mem.wf → (hostReset s).Inv

/-- From every state with canonical memory and pc in 0..256, a step gives such a state (form: log 6).
Rests on: 10_state.md section 8 (invariants); log 6 (the canonical form memory is held in). -/
def Obligations.EveryStepKeepsInvariant : Prop :=
  ∀ s t : State, s.Inv → step s = .next t → t.Inv

/-- Each host operation keeps the invariant from every state that has it, so every reachable state has it (form: log 6).
Rests on: 10_state.md section 8 (invariants); 70_reset_and_hazards.md section 2 (host interface); log 6 (the canonical form memory is held in). -/
def Obligations.HostOperationsKeepInvariantSoReachableStatesSatisfyIt : Prop :=
  (∀ (s : State) (bytes : List Byte), s.Inv → (loadProgram bytes s).2.Inv) ∧
  (∀ s : State, s.Inv → (hostReset s).Inv) ∧
  (∀ (s t : State) (n : Nat), s.Inv → run n s = .next t → t.Inv) ∧
  (∀ (s t : State) (i : Nat) (v : Byte), s.Inv → writeRegister i v s = .ok t → t.Inv) ∧
  (∀ s : State, Reachable s → s.Inv)

/-- reset() sets R0..R6 to 0, R7 to 243, pc to 0, FL to none, status Running, and leaves memory (D2, D3, D28).
Rests on: 70_reset_and_hazards.md sections 1 and 2 (decisions D2, D3, D28); 10_state.md section 7. -/
def Obligations.HostResetRestoresTheStartState : Prop :=
  (∀ s : State, (hostReset s).sp.toNat = 243 ∧ (∀ r, r ≠ .r7 → (hostReset s).reg r = 0) ∧ (hostReset s).pc = 0 ∧
    (hostReset s).fl.E = false ∧ (hostReset s).fl.L = false ∧ (hostReset s).fl.G = false ∧
    (hostReset s).status = .running ∧ MemSame s (hostReset s) ∧ (hostReset s).out = s.out) ∧
  hostReset State.reset = State.reset ∧ ∀ addr, State.reset.mem.read addr = 0

/-- load_program of more than 256 bytes returns ProgramTooLarge and changes no state.
Rests on: R111. -/
def Obligations.OversizedLoadChangesNothing : Prop :=
  ∀ (bytes : List Byte) (s : State),
    (256 < bytes.length → loadProgram bytes s = (.programTooLarge, s)) ∧
    (bytes.length ≤ 256 → (loadProgram bytes s).1 = .ok)

/-- load_program puts byte i of at most 256 at address i and changes nothing else.
Rests on: 70_reset_and_hazards.md section 2 (load_program, decision D18). -/
def Obligations.LoadPlacesBytesFromAddressZero : Prop :=
  ∀ (bytes : List Byte) (s : State), bytes.length ≤ 256 →
    (loadProgram bytes s).1 = .ok ∧
    (∀ (i : Nat) (hi : i < bytes.length), (loadProgram bytes s).2.mem.read i = bytes[i]) ∧
    (∀ i, bytes.length ≤ i → (loadProgram bytes s).2.mem.read i = s.mem.read i) ∧
    { (loadProgram bytes s).2 with mem := s.mem } = s

/-- run(n) is n steps of the machine from pc = 0 and Running, its early stop making no difference (D11, log 12).
Rests on: 70_reset_and_hazards.md section 2 (run, decisions D26, D27); 60_exceptions.md sections 3 and 6 (decision D11); 92_eei_decisions.md D11, D26, D27. -/
def Obligations.RunIsStepsFromAddressZero : Prop :=
  ∀ (n : Nat) (s : State), run n s = core.run n { s with pc := 0, status := .running }

/-- An unbudgeted run ends in at most one state, which is Halted or Error, and a larger budget does not change it.
Rests on: 70_reset_and_hazards.md sections 2 and 3 (run, end of a run). -/
def Obligations.RunWithoutBudgetHasOneEnd : Prop :=
  (∀ s t u : State, RunEnds s t → RunEnds s u → t = u) ∧
  (∀ s t : State, RunEnds s t → t.status = .halted ∨ ∃ k, t.status = .error k) ∧
  (∀ (n m : Nat) (s t : State), run n s = .next t → t.status ≠ .running → n ≤ m → run m s = .next t)

/-- read_register and write_register work for indices 0..7 and answer AddressingError for others (D19).
Rests on: 70_reset_and_hazards.md section 2 (read_register, write_register; decision D19). -/
def Obligations.HostRegisterPortsAreIndexChecked : Prop :=
  (∀ (i : Nat) (v : Byte) (s : State), i ≤ 7 → ∃ t, writeRegister i v s = .ok t ∧ readRegister i t = .ok v ∧
    (∀ j, j ≠ i → readRegister j t = readRegister j s) ∧ { t with regs := s.regs } = s) ∧
  (∀ (i : Nat) (v : Byte) (s : State), 7 < i →
    readRegister i s = .error .addressingError ∧ writeRegister i v s = .error .addressingError)
end

