-- ==== Sys2Proof/Laws/State.lean ====
section
/-! SUPPORT. One lemma per field per update of the state, so that no proof unfolds a record update. A register is read
through `State.reg`, never through the register file. -/

namespace Sys2Proof.Machine

variable (s : State)

/-! ## Registers -/

@[simp] theorem RegFile.get_set_same (f : RegFile) (r : Reg) (v : Byte) : (f.set r v).get r = v := by cases r <;> rfl

theorem RegFile.get_set_of_ne (f : RegFile) {r r' : Reg} (v : Byte) (h : r' ≠ r) : (f.set r v).get r' = f.get r' := by
  cases r <;> cases r' <;> first | rfl | exact absurd rfl h

theorem RegFile.ext_get {f g : RegFile} (h : ∀ r, f.get r = g.get r) : f = g := by
  have h0 := h .r0
  have h1 := h .r1
  have h2 := h .r2
  have h3 := h .r3
  have h4 := h .r4
  have h5 := h .r5
  have h6 := h .r6
  have h7 := h .r7
  cases f
  cases g
  simp_all [RegFile.get]

@[simp] theorem State.regs_get (r : Reg) : s.regs.get r = s.reg r := rfl

@[simp] theorem State.sp_eq : s.sp = s.reg .r7 := rfl

@[simp] theorem State.reg_mk (f : RegFile) (p : PcWord) (g : Flags) (u : Status) (m : Memory) (o : List Byte) (r : Reg) :
    (State.mk f p g u m o).reg r = f.get r := rfl

@[simp] theorem reg_setReg_same (r : Reg) (v : Byte) : (s.setReg r v).reg r = v := s.regs.get_set_same r v

theorem reg_setReg_of_ne {r r' : Reg} (v : Byte) (h : r' ≠ r) : (s.setReg r v).reg r' = s.reg r' :=
  s.regs.get_set_of_ne v h

theorem reg_setReg (r r' : Reg) (v : Byte) : (s.setReg r v).reg r' = if r' = r then v else s.reg r' := by
  split
  · subst_vars; simp
  · exact reg_setReg_of_ne s v ‹_›

/-! ## `setReg` -/

@[simp] theorem pc_setReg (r : Reg) (v : Byte) : (s.setReg r v).pc = s.pc := rfl
@[simp] theorem fl_setReg (r : Reg) (v : Byte) : (s.setReg r v).fl = s.fl := rfl
@[simp] theorem status_setReg (r : Reg) (v : Byte) : (s.setReg r v).status = s.status := rfl
@[simp] theorem mem_setReg (r : Reg) (v : Byte) : (s.setReg r v).mem = s.mem := rfl
@[simp] theorem out_setReg (r : Reg) (v : Byte) : (s.setReg r v).out = s.out := rfl

/-- A second write to a register makes the first one nothing. -/
@[simp] theorem setReg_setReg_same (r : Reg) (v w : Byte) : (s.setReg r v).setReg r w = s.setReg r w := by
  cases r <;> rfl

theorem setReg_comm {r r' : Reg} (v w : Byte) (h : r ≠ r') :
    (s.setReg r v).setReg r' w = (s.setReg r' w).setReg r v := by
  cases r <;> cases r' <;> first | rfl | exact absurd rfl h

/-! ## `advance` -/

@[simp] theorem regs_advance (n : Nat) : (advance n s).regs = s.regs := rfl
@[simp] theorem reg_advance (n : Nat) (r : Reg) : (advance n s).reg r = s.reg r := rfl
@[simp] theorem pc_advance (n : Nat) : (advance n s).pc = s.pc + BitVec.ofNat 9 n := rfl
@[simp] theorem fl_advance (n : Nat) : (advance n s).fl = s.fl := rfl
@[simp] theorem status_advance (n : Nat) : (advance n s).status = s.status := rfl
@[simp] theorem mem_advance (n : Nat) : (advance n s).mem = s.mem := rfl
@[simp] theorem out_advance (n : Nat) : (advance n s).out = s.out := rfl

/-! ## `jump` -/

@[simp] theorem regs_jump (b : Byte) : (jump b s).regs = s.regs := rfl
@[simp] theorem reg_jump (b : Byte) (r : Reg) : (jump b s).reg r = s.reg r := rfl
@[simp] theorem pc_jump (b : Byte) : (jump b s).pc = b.setWidth 9 := rfl
@[simp] theorem fl_jump (b : Byte) : (jump b s).fl = s.fl := rfl
@[simp] theorem status_jump (b : Byte) : (jump b s).status = s.status := rfl
@[simp] theorem mem_jump (b : Byte) : (jump b s).mem = s.mem := rfl
@[simp] theorem out_jump (b : Byte) : (jump b s).out = s.out := rfl

/-! ## `setFlags` -/

@[simp] theorem regs_setFlags (f : Flags) : (setFlags f s).regs = s.regs := rfl
@[simp] theorem reg_setFlags (f : Flags) (r : Reg) : (setFlags f s).reg r = s.reg r := rfl
@[simp] theorem pc_setFlags (f : Flags) : (setFlags f s).pc = s.pc := rfl
@[simp] theorem fl_setFlags (f : Flags) : (setFlags f s).fl = f := rfl
@[simp] theorem status_setFlags (f : Flags) : (setFlags f s).status = s.status := rfl
@[simp] theorem mem_setFlags (f : Flags) : (setFlags f s).mem = s.mem := rfl
@[simp] theorem out_setFlags (f : Flags) : (setFlags f s).out = s.out := rfl

/-! ## `emit` -/

@[simp] theorem regs_emit (v : Byte) : (emit v s).regs = s.regs := rfl
@[simp] theorem reg_emit (v : Byte) (r : Reg) : (emit v s).reg r = s.reg r := rfl
@[simp] theorem pc_emit (v : Byte) : (emit v s).pc = s.pc := rfl
@[simp] theorem fl_emit (v : Byte) : (emit v s).fl = s.fl := rfl
@[simp] theorem status_emit (v : Byte) : (emit v s).status = s.status := rfl
@[simp] theorem mem_emit (v : Byte) : (emit v s).mem = s.mem := rfl
@[simp] theorem out_emit (v : Byte) : (emit v s).out = s.out ++ [v] := rfl

/-! ## `halt` -/

@[simp] theorem regs_halt : (halt s).regs = s.regs := rfl
@[simp] theorem reg_halt (r : Reg) : (halt s).reg r = s.reg r := rfl
@[simp] theorem pc_halt : (halt s).pc = s.pc := rfl
@[simp] theorem fl_halt : (halt s).fl = s.fl := rfl
@[simp] theorem status_halt : (halt s).status = .halted := rfl
@[simp] theorem mem_halt : (halt s).mem = s.mem := rfl
@[simp] theorem out_halt : (halt s).out = s.out := rfl

/-! ## `takeError` -/

@[simp] theorem regs_takeError (k : ErrorKind) : (takeError k s).regs = s.regs := rfl
@[simp] theorem reg_takeError (k : ErrorKind) (r : Reg) : (takeError k s).reg r = s.reg r := rfl
@[simp] theorem pc_takeError (k : ErrorKind) : (takeError k s).pc = s.pc := rfl
@[simp] theorem fl_takeError (k : ErrorKind) : (takeError k s).fl = s.fl := rfl
@[simp] theorem status_takeError (k : ErrorKind) : (takeError k s).status = .error k := rfl
@[simp] theorem mem_takeError (k : ErrorKind) : (takeError k s).mem = s.mem := rfl
@[simp] theorem out_takeError (k : ErrorKind) : (takeError k s).out = s.out := rfl

/-! ## `startRun` -/

@[simp] theorem regs_startRun : (startRun s).regs = s.regs := rfl
@[simp] theorem reg_startRun (r : Reg) : (startRun s).reg r = s.reg r := rfl
@[simp] theorem pc_startRun : (startRun s).pc = 0 := rfl
@[simp] theorem fl_startRun : (startRun s).fl = s.fl := rfl
@[simp] theorem status_startRun : (startRun s).status = .running := rfl
@[simp] theorem mem_startRun : (startRun s).mem = s.mem := rfl
@[simp] theorem out_startRun : (startRun s).out = s.out := rfl

/-! ## `branch` -/

@[simp] theorem regs_branch (taken : Bool) (b : Byte) : (branch taken b s).regs = s.regs := by
  cases taken <;> rfl
@[simp] theorem fl_branch (taken : Bool) (b : Byte) : (branch taken b s).fl = s.fl := by
  cases taken <;> rfl
@[simp] theorem status_branch (taken : Bool) (b : Byte) : (branch taken b s).status = s.status := by
  cases taken <;> rfl
@[simp] theorem mem_branch (taken : Bool) (b : Byte) : (branch taken b s).mem = s.mem := by
  cases taken <;> rfl
@[simp] theorem out_branch (taken : Bool) (b : Byte) : (branch taken b s).out = s.out := by
  cases taken <;> rfl
@[simp] theorem reg_branch (taken : Bool) (b : Byte) (r : Reg) : (branch taken b s).reg r = s.reg r := by
  cases taken <;> rfl
theorem branch_true (b : Byte) : branch true b s = jump b s := rfl
theorem branch_false (b : Byte) : branch false b s = advance 2 s := rfl

end Sys2Proof.Machine
end

