-- ==== Sys2Proof/Laws/Memory.lean ====
section
/-! SUPPORT. Memory: a read after a write, and that every operation keeps the canonical form. -/

namespace Sys2Proof.Machine

/-! ## Reading -/

@[simp] theorem Memory.read_nil (addr : Nat) : Memory.read [] addr = Config.memInit := rfl

theorem Memory.read_cons (c : Host.Cell) (m : Memory) (addr : Nat) :
    Memory.read (c :: m) addr = if c.1 = addr then c.2 else Memory.read m addr := rfl

/-- An address that no cell lists reads as `Config.memInit`. -/
theorem Memory.read_of_not_listed {m : Memory} {addr : Nat} (h : ∀ c ∈ m, c.1 ≠ addr) : m.read addr = Config.memInit := by
  induction m with
  | nil => rfl
  | cons c m ih =>
    rw [Memory.read_cons, if_neg (h c (by simp))]
    exact ih fun d hd => h d (by simp [hd])

/-- A listed cell of a canonical memory is what its address reads as. -/
theorem Memory.read_of_mem {m : Memory} (hm : m.Pairwise fun c d => c.1 < d.1) {c : Host.Cell} (hc : c ∈ m) :
    m.read c.1 = c.2 := by
  induction m with
  | nil => cases hc
  | cons d m ih =>
    obtain ⟨hd, hm⟩ := List.pairwise_cons.mp hm
    rcases List.mem_cons.mp hc with rfl | hc
    · simp [Memory.read_cons]
    · rw [Memory.read_cons, if_neg (by have := hd c hc; omega)]
      exact ih hm hc

/-! ## Writing -/

theorem Memory.read_insert (m : Memory) (addr x : Nat) (v : Byte) :
    (m.insert addr v).read x = if x = addr then v else m.read x := by
  induction m with
  | nil => simp [Memory.insert, Memory.read_cons, eq_comm]
  | cons c m ih =>
    simp only [Memory.insert]
    repeat' split
    all_goals grind [Memory.read_cons]

theorem Memory.read_erase (m : Memory) (addr x : Nat) :
    (m.erase addr).read x = if x = addr then Config.memInit else m.read x := by
  induction m with
  | nil => simp [Memory.erase]
  | cons c m ih =>
    simp only [Memory.erase, List.filter_cons] at ih ⊢
    split <;> grind [Memory.read_cons]

/-- What memory reads as after one write. -/
theorem Memory.read_write (m : Memory) (addr x : Nat) (v : Byte) :
    (m.write addr v).read x = if x = addr then v else m.read x := by
  unfold Memory.write
  split
  · subst_vars; exact m.read_erase addr x
  · exact m.read_insert addr x v

@[simp] theorem Memory.read_write_same (m : Memory) (addr : Nat) (v : Byte) : (m.write addr v).read addr = v := by
  simp [Memory.read_write]

theorem Memory.read_write_of_ne (m : Memory) {addr x : Nat} (v : Byte) (h : x ≠ addr) :
    (m.write addr v).read x = m.read x := by
  simp [Memory.read_write, h]

/-! ## The canonical form -/

theorem Memory.mem_insert {m : Memory} {addr : Nat} {v : Byte} {c : Host.Cell} (h : c ∈ m.insert addr v) :
    c = (addr, v) ∨ c ∈ m := by
  induction m with
  | nil => simpa [Memory.insert] using h
  | cons d m ih =>
    simp only [Memory.insert] at h
    repeat' split at h
    all_goals grind

theorem Memory.pairwise_insert {m : Memory} (hm : m.Pairwise fun c d => c.1 < d.1) (addr : Nat) (v : Byte) :
    (m.insert addr v).Pairwise fun c d => c.1 < d.1 := by
  induction m with
  | nil => simp [Memory.insert]
  | cons c m ih =>
    obtain ⟨hc, hm⟩ := List.pairwise_cons.mp hm
    simp only [Memory.insert]
    repeat' split
    · refine List.pairwise_cons.mpr ⟨fun d hd => ?_, List.pairwise_cons.mpr ⟨hc, hm⟩⟩
      rcases List.mem_cons.mp hd with rfl | hd
      · assumption
      · exact Nat.lt_trans ‹_› (hc d hd)
    · subst_vars
      exact List.pairwise_cons.mpr ⟨hc, hm⟩
    · refine List.pairwise_cons.mpr ⟨fun d hd => ?_, ih hm⟩
      rcases Memory.mem_insert hd with rfl | hd
      · simp only; omega
      · exact hc d hd

/-- A write keeps the canonical form. -/
theorem Memory.wf_write {m : Memory} (hm : m.wf) {addr : Nat} (ha : addr < Config.memSize) (v : Byte) :
    (m.write addr v).wf := by
  unfold Memory.write
  split
  · exact ⟨hm.1.filter _, fun c hc => hm.2 c (List.mem_filter.mp hc).1⟩
  · refine ⟨Memory.pairwise_insert hm.1 addr v, fun c hc => ?_⟩
    rcases Memory.mem_insert hc with rfl | hc
    · exact ⟨ha, ‹_›⟩
    · exact hm.2 c hc

theorem Memory.wf_nil : Memory.wf [] := by decide

/-- The memory after reset is canonical. -/
theorem wf_reset : State.reset.mem.wf := Memory.wf_nil

/-! ## Storing several bytes -/

theorem storeBytes_nil (m : Memory) (addr : Nat) : storeBytes m addr [] = m := rfl

theorem storeBytes_cons (m : Memory) (addr : Nat) (v : Byte) (vs : List Byte) :
    storeBytes m addr (v :: vs) = if addr < 256 then storeBytes (m.write addr v) (addr + 1) vs else m := rfl

/-- Storing bytes keeps the canonical form. -/
theorem wf_storeBytes {m : Memory} (hm : m.wf) (addr : Nat) (vs : List Byte) : (storeBytes m addr vs).wf := by
  induction vs generalizing m addr with
  | nil => exact hm
  | cons v vs ih =>
    rw [storeBytes_cons]
    split
    · exact ih (Memory.wf_write hm (by simpa using ‹addr < 256›) v) (addr + 1)
    · exact hm

/-- What memory reads as after bytes were stored from `addr`, where they fit. -/
theorem read_storeBytes (m : Memory) (addr x : Nat) (vs : List Byte) (h : addr + vs.length ≤ 256) :
    (storeBytes m addr vs).read x = if addr ≤ x ∧ x < addr + vs.length then vs.getD (x - addr) 0 else m.read x := by
  induction vs generalizing m addr with
  | nil => simp [storeBytes_nil, show ¬(addr ≤ x ∧ x < addr) by omega]
  | cons v vs ih =>
    simp only [List.length_cons] at h ⊢
    rw [storeBytes_cons, if_pos (by omega), ih _ _ (by omega), Memory.read_write]
    by_cases hx : x = addr
    · subst hx
      rw [if_neg (by omega), if_pos rfl, if_pos (by omega)]
      simp
    · by_cases hr : addr + 1 ≤ x ∧ x < addr + 1 + vs.length
      · rw [if_pos hr, if_pos (by omega), show x - addr = (x - (addr + 1)) + 1 by omega]
        simp
      · rw [if_neg hr, if_neg hx, if_neg (by omega)]

end Sys2Proof.Machine
end

