-- ==== Sys2Proof/Laws/Ops.lean ====
section
/-! SUPPORT. What each shared operation can do, said once: ending an instruction, operands, memory accesses, the stack
controller. -/

namespace Sys2Proof.Machine

/-! ## Sequencing inside a meaning -/

@[simp] theorem ok_bind {α β : Type} (x : α) (f : α → Except ErrorKind β) : (Except.ok x >>= f) = f x := rfl

@[simp] theorem error_bind {α β : Type} (k : ErrorKind) (f : α → Except ErrorKind β) :
    (Except.error k >>= f) = Except.error k := rfl

/-- A sequence that succeeds is two that do. -/
theorem bind_eq_ok {α β : Type} {x : Except ErrorKind α} {f : α → Except ErrorKind β} {b : β} (h : (x >>= f) = .ok b) :
    ∃ a, x = .ok a ∧ f a = .ok b := by
  cases x with
  | ok a => exact ⟨a, rfl, h⟩
  | error k => cases h

/-! ## Ending an instruction -/

@[simp] theorem commit_ok (s t : State) : commit s (.ok t) = .next t := rfl

@[simp] theorem commit_error (s : State) (k : ErrorKind) : commit s (.error k) = .next (takeError k s) := rfl

/-- An instruction always ends in a next state: its own, or the error taken in the state it began in. -/
theorem commit_cases {s t : State} {r : Except ErrorKind State} (h : commit s r = .next t) :
    r = .ok t ∨ ∃ k, r = .error k ∧ t = takeError k s := by
  cases r with
  | ok u => exact .inl (by simpa using h)
  | error k => exact .inr ⟨k, rfl, by simpa using h.symm⟩

theorem commit_total (s : State) (r : Except ErrorKind State) : ∃ t, commit s r = .next t := by
  cases r <;> simp

/-! ## Register operands -/

@[simp] theorem Reg.ofNat?_byte (r : Reg) : Reg.ofNat? r.byte.toNat = some r := by cases r <;> rfl

theorem Reg.byte_lt (r : Reg) : r.byte.toNat < 8 := by cases r <;> decide

theorem Reg.byte_injective {r r' : Reg} (h : r.byte = r'.byte) : r = r' := by
  have := congrArg (fun b => Reg.ofNat? b.toNat) h
  simpa using this

/-- The operand bytes 0..7 are the registers' (R20). -/
theorem Reg.exists_byte {b : Byte} (h : b.toNat < 8) : ∃ r : Reg, b = r.byte := by
  have key : ∀ c : Fin 8, ∃ r : Reg, BitVec.ofNat 8 c.val = r.byte := by
    intro c
    match c with
    | 0 => exact ⟨.r0, rfl⟩
    | 1 => exact ⟨.r1, rfl⟩
    | 2 => exact ⟨.r2, rfl⟩
    | 3 => exact ⟨.r3, rfl⟩
    | 4 => exact ⟨.r4, rfl⟩
    | 5 => exact ⟨.r5, rfl⟩
    | 6 => exact ⟨.r6, rfl⟩
    | 7 => exact ⟨.r7, rfl⟩
  obtain ⟨r, hr⟩ := key ⟨b.toNat, h⟩
  exact ⟨r, by simpa using hr⟩

theorem Reg.ofNat?_eq_none {n : Nat} (h : 7 < n) : Reg.ofNat? n = none := by
  unfold Reg.ofNat?
  split <;> first | rfl | omega

/-- A register of a number is the register that the number's byte names. -/
theorem Reg.ofNat?_eq_some {b : Byte} {r : Reg} (h : Reg.ofNat? b.toNat = some r) : b = r.byte := by
  by_cases hb : b.toNat < 8
  · obtain ⟨r', rfl⟩ := Reg.exists_byte hb
    rw [Reg.ofNat?_byte] at h
    rw [Option.some.inj h]
  · rw [Reg.ofNat?_eq_none (by omega)] at h
    cases h

@[simp] theorem regOperand_byte (r : Reg) : regOperand r.byte = .ok r := by simp [regOperand]

theorem regOperand_illegal {b : Byte} (h : 7 < b.toNat) : regOperand b = .error .addressingError := by
  simp [regOperand, Reg.ofNat?_eq_none h]

/-- An operand byte in the register role names a register, or is 8..255 and an addressing error (R24). -/
theorem regOperand_cases (b : Byte) :
    (∃ r : Reg, b = r.byte ∧ regOperand b = .ok r) ∨ (7 < b.toNat ∧ regOperand b = .error .addressingError) := by
  by_cases h : b.toNat < 8
  · obtain ⟨r, rfl⟩ := Reg.exists_byte h
    exact .inl ⟨r, rfl, by simp⟩
  · exact .inr ⟨by omega, regOperand_illegal (by omega)⟩

theorem regOperand_eq_ok {b : Byte} {r : Reg} (h : regOperand b = .ok r) : b = r.byte := by
  rcases regOperand_cases b with ⟨r', hb, h'⟩ | ⟨_, h'⟩ <;> rw [h'] at h <;> cases h
  exact hb

@[simp] theorem regOperands_byte (ra rb : Reg) : regOperands ra.byte rb.byte = .ok (ra, rb) := by simp [regOperands]

theorem regOperands_illegal {a b : Byte} (h : 7 < a.toNat ∨ 7 < b.toNat) :
    regOperands a b = .error .addressingError := by
  rcases regOperand_cases a with ⟨ra, rfl, ha⟩ | ⟨_, ha⟩
  · have hb : 7 < b.toNat := h.resolve_left (by have := ra.byte_lt; omega)
    simp [regOperands, regOperand_illegal hb]
  · simp [regOperands, ha]

theorem regOperands_eq_ok {a b : Byte} {p : Reg × Reg} (h : regOperands a b = .ok p) : a = p.1.byte ∧ b = p.2.byte := by
  obtain ⟨ra, ha, h⟩ := bind_eq_ok h
  obtain ⟨rb, hb, h⟩ := bind_eq_ok h
  cases h
  exact ⟨regOperand_eq_ok ha, regOperand_eq_ok hb⟩

@[simp] theorem isRegByte_byte (r : Reg) : isRegByte r.byte = true := by cases r <;> rfl

theorem isRegByte_eq_true {b : Byte} : isRegByte b = true ↔ b.toNat ≤ 7 := by
  rw [isRegByte, decide_eq_true_iff, Config.numRegs]
  omega

theorem isRegByte_eq_false {b : Byte} : isRegByte b = false ↔ 7 < b.toNat := by
  rw [isRegByte, decide_eq_false_iff_not, Config.numRegs]
  omega

/-! ## Memory accesses -/

theorem memRead_ok {addr : Nat} (h : addr < 256) (s : State) : memRead addr s = .ok (s.mem.read addr) :=
  if_pos h

theorem memRead_illegal {addr : Nat} (h : 255 < addr) (s : State) : memRead addr s = .error .addressingError :=
  if_neg (Nat.not_lt.mpr h)

theorem memWrite_ok {addr : Nat} (h : addr < 256) (v : Byte) (s : State) :
    memWrite addr v s = .ok { s with mem := s.mem.write addr v } :=
  if_pos h

theorem memWrite_illegal {addr : Nat} (h : 255 < addr) (v : Byte) (s : State) :
    memWrite addr v s = .error .addressingError :=
  if_neg (Nat.not_lt.mpr h)

/-! ## The stack controller (R95) -/

/-- What a push leaves: the byte at the address below SP, SP moved there. -/
def pushed (v : Byte) (s : State) : State :=
  { s.setReg .r7 (s.reg .r7 - 1) with mem := s.mem.write (s.reg .r7 - 1).toNat v }

theorem push_ok {s : State} (h : s.reg .r7 ≠ 0) (v : Byte) : push v s = .ok (pushed v s) := by
  rw [push, State.sp_eq, if_neg h, memWrite_ok (BitVec.isLt (s.reg .r7 - 1))]
  rfl

theorem push_underflow {s : State} (h : s.reg .r7 = 0) (v : Byte) : push v s = .error .addressingError := by
  simp [push, h]

/-- A push that succeeds began above address 0. -/
theorem push_eq_ok {s t : State} {v : Byte} (h : push v s = .ok t) : s.reg .r7 ≠ 0 ∧ t = pushed v s := by
  by_cases h0 : s.reg .r7 = 0
  · rw [push_underflow h0] at h; cases h
  · rw [push_ok h0] at h
    exact ⟨h0, (Except.ok.inj h).symm⟩

theorem push_eq_error {s : State} {v : Byte} {k : ErrorKind} (h : push v s = .error k) :
    s.reg .r7 = 0 ∧ k = .addressingError := by
  by_cases h0 : s.reg .r7 = 0
  · rw [push_underflow h0] at h
    exact ⟨h0, (Except.error.inj h).symm⟩
  · rw [push_ok h0] at h; cases h

theorem pop_ok {s : State} (h : s.reg .r7 ≠ 255) :
    pop s = .ok (s.mem.read (s.reg .r7).toNat, s.setReg .r7 (s.reg .r7 + 1)) := by
  rw [pop, State.sp_eq, if_neg h, memRead_ok (BitVec.isLt (s.reg .r7))]

theorem pop_overflow {s : State} (h : s.reg .r7 = 255) : pop s = .error .addressingError := by simp [pop, h]

/-- A pop that succeeds began below address 255. -/
theorem pop_eq_ok {s : State} {p : Byte × State} (h : pop s = .ok p) :
    s.reg .r7 ≠ 255 ∧ p = (s.mem.read (s.reg .r7).toNat, s.setReg .r7 (s.reg .r7 + 1)) := by
  by_cases h0 : s.reg .r7 = 255
  · rw [pop_overflow h0] at h; cases h
  · rw [pop_ok h0] at h
    exact ⟨h0, (Except.ok.inj h).symm⟩

@[simp] theorem regs_pushed (v : Byte) (s : State) (r : Reg) :
    (pushed v s).reg r = (s.setReg .r7 (s.reg .r7 - 1)).reg r := rfl
@[simp] theorem pc_pushed (v : Byte) (s : State) : (pushed v s).pc = s.pc := rfl
@[simp] theorem fl_pushed (v : Byte) (s : State) : (pushed v s).fl = s.fl := rfl
@[simp] theorem status_pushed (v : Byte) (s : State) : (pushed v s).status = s.status := rfl
@[simp] theorem mem_pushed (v : Byte) (s : State) :
    (pushed v s).mem = s.mem.write (s.reg .r7 - 1).toNat v := rfl
@[simp] theorem out_pushed (v : Byte) (s : State) : (pushed v s).out = s.out := rfl

/-! ## CALL's return address -/

theorem returnAddress_ok {s : State} (h : s.pc.toNat + 2 < 256) :
    returnAddress s = .ok (BitVec.ofNat 8 (s.pc.toNat + 2)) := if_pos h

theorem returnAddress_illegal {s : State} (h : 253 < s.pc.toNat) : returnAddress s = .error .addressingError :=
  if_neg (by rw [Config.memSize]; omega)

theorem returnAddress_eq_ok {s : State} {v : Byte} (h : returnAddress s = .ok v) :
    s.pc.toNat + 2 < 256 ∧ v = BitVec.ofNat 8 (s.pc.toNat + 2) := by
  by_cases h0 : s.pc.toNat + 2 < 256
  · rw [returnAddress_ok h0] at h
    exact ⟨h0, (Except.ok.inj h).symm⟩
  · rw [returnAddress_illegal (by omega)] at h; cases h

end Sys2Proof.Machine
end

