-- ==== Sys2Proof/Laws/Arith.lean ====
section
/-! SUPPORT. The ALU's results as the spec writes them, on integers modulo 256 (`00_scope.md` R15). -/

namespace Sys2Proof.Machine

theorem toNat_narrow (n : Int) : ((narrow n).toNat : Int) = n % 256 := by
  simp [narrow, BitVec.toNat_ofInt]
  omega

theorem toNat_aluAdd (A B : Byte) : (aluAdd A B).toNat = (A.toNat + B.toNat) % 256 := by
  have := toNat_narrow ((A.toNat : Int) + B.toNat)
  simp only [aluAdd]
  omega

theorem toNat_aluSub (A B : Byte) : ((aluSub A B).toNat : Int) = ((A.toNat : Int) - B.toNat) % 256 := toNat_narrow _

theorem toNat_aluMul (A B : Byte) : (aluMul A B).toNat = A.toNat * B.toNat % 256 := by
  have := toNat_narrow ((A.toNat : Int) * B.toNat)
  have h : ((A.toNat : Int) * B.toNat) = ((A.toNat * B.toNat : Nat) : Int) := by simp
  simp only [aluMul]
  rw [h] at this ⊢
  omega

theorem toNat_aluInc (A : Byte) : (aluInc A).toNat = (A.toNat + 1) % 256 := by
  have := toNat_narrow ((A.toNat : Int) + 1)
  simp only [aluInc]
  omega

theorem toNat_aluDec (A : Byte) : ((aluDec A).toNat : Int) = ((A.toNat : Int) - 1) % 256 := toNat_narrow _

theorem aluDiv_zero (A : Byte) : aluDiv A 0 = .error .divisionByZero := rfl

theorem aluMod_zero (A : Byte) : aluMod A 0 = .error .divisionByZero := rfl

theorem aluDiv_ok (A : Byte) {B : Byte} (h : B ≠ 0) : ∃ v, aluDiv A B = .ok v ∧ v.toNat = A.toNat / B.toNat := by
  refine ⟨_, if_neg h, ?_⟩
  have := Nat.div_le_self A.toNat B.toNat
  rw [BitVec.toNat_ofNat, Nat.mod_eq_of_lt (by have := A.isLt; omega)]

theorem aluMod_ok (A : Byte) {B : Byte} (h : B ≠ 0) : ∃ v, aluMod A B = .ok v ∧ v.toNat = A.toNat % B.toNat := by
  refine ⟨_, if_neg h, ?_⟩
  have := Nat.mod_le A.toNat B.toNat
  rw [BitVec.toNat_ofNat, Nat.mod_eq_of_lt (by have := A.isLt; omega)]

theorem toNat_aluNot (A : Byte) : (aluNot A).toNat = 255 - A.toNat := by simp [aluNot, BitVec.toNat_not]

/-- The mask keeps the low three bits (R84). -/
theorem shiftAmount_eq (B : Byte) : shiftAmount B = B.toNat % 8 := by
  rw [shiftAmount, Config.shiftMask, BitVec.toNat_and]
  exact Nat.and_two_pow_sub_one_eq_mod B.toNat 3

theorem toNat_aluShl (A B : Byte) : (aluShl A B).toNat = A.toNat * 2 ^ (B.toNat % 8) % 256 := by
  simp [aluShl, shiftAmount_eq, BitVec.toNat_shiftLeft, Nat.shiftLeft_eq]

theorem toNat_aluShr (A B : Byte) : (aluShr A B).toNat = A.toNat / 2 ^ (B.toNat % 8) := by
  simp [aluShr, shiftAmount_eq, BitVec.toNat_ushiftRight, Nat.shiftRight_eq_div_pow]

theorem compareFlags_E (A B : Byte) : (compareFlags A B).E = decide (A.toNat = B.toNat) := by
  unfold compareFlags
  repeat' split
  all_goals simp_all [Flags.E]

theorem compareFlags_L (A B : Byte) : (compareFlags A B).L = decide (A.toNat < B.toNat) := by
  unfold compareFlags
  repeat' split
  all_goals simp_all [Flags.L]

theorem compareFlags_G (A B : Byte) : (compareFlags A B).G = decide (B.toNat < A.toNat) := by
  unfold compareFlags
  repeat' split
  all_goals simp_all [Flags.G]
  all_goals omega

end Sys2Proof.Machine
end

