-- ==== Sys2Proof/Laws/Decode.lean ====
section
/-! SUPPORT. The decoder and the encoder, on one instruction: what the opcode's fields say of it, and how `decode`
reads a list that holds the bytes its opcode asks for. -/

namespace Sys2Proof

theorem opCount_toNat (op : Byte) : opCount op = op.toNat / 64 := by
  have := op.isLt
  simp only [opCount, BitVec.extractLsb_toNat, Nat.shiftRight_eq_div_pow]
  omega

theorem decode_nil : decode [] = .error .outOfBytes := rfl

/-- A count field of 3 is unsupported, whatever follows (R66). -/
theorem decode_count_three {op : Byte} (h : opCount op = 3) (rest : List Byte) :
    decode (op :: rest) = .error .unsupported := if_pos h

/-- Too few bytes for the opcode's operands (R58). -/
theorem decode_short {op : Byte} {rest : List Byte} (h3 : opCount op ≠ 3) (h : rest.length < opCount op) :
    decode (op :: rest) = .error .outOfBytes := by
  simp [decode, h3, h]

/-- With all its operand bytes there, the opcode map decides (R62). -/
theorem decode_long {op : Byte} {rest : List Byte} (h3 : opCount op ≠ 3) (h : opCount op ≤ rest.length) :
    decode (op :: rest) =
      match decodeOp op (operandByte (opCount op) 0 rest) (operandByte (opCount op) 1 rest) with
      | some i => .ok (i, rest.drop (opCount op))
      | none => .error .unsupported :=
  (if_neg h3).trans (if_neg (Nat.not_lt.mpr h))

/-- Decoding succeeds only on an opcode of the map with all its operand bytes there. -/
theorem decode_eq_ok {bytes rest : List Byte} {i : Instr} (h : decode bytes = .ok (i, rest)) :
    ∃ op tail, bytes = op :: tail ∧ opCount op ≠ 3 ∧ opCount op ≤ tail.length ∧ rest = tail.drop (opCount op) ∧
      decodeOp op (operandByte (opCount op) 0 tail) (operandByte (opCount op) 1 tail) = some i := by
  cases bytes with
  | nil => cases h
  | cons op tail =>
    by_cases h3 : opCount op = 3
    · rw [decode_count_three h3] at h; cases h
    by_cases hl : opCount op ≤ tail.length
    · rw [decode_long h3 hl] at h
      split at h
      · next j hj =>
        cases h
        exact ⟨op, tail, rfl, h3, hl, rfl, hj⟩
      · cases h
    · rw [decode_short h3 (by omega)] at h; cases h

@[simp] theorem encode_length (i : Instr) : (encode i).length = 1 + (operands i).length := by
  simp [encode, Nat.add_comm]

end Sys2Proof
end

