-- ==== Sys2Proof/Laws/Meanings.lean ====
section
/-! SUPPORT. What each meaning can do, said once: its next state on register operands, the error it takes otherwise,
and one inversion per shape. -/

namespace Sys2Proof.Machine

/-! ## The two ALU shapes -/

/-- A two-register ALU instruction either writes its result and moves on, or takes an error. -/
theorem binaryAlu_cases {op : Byte → Byte → Except ErrorKind Byte} {a b : Byte} {s t : State}
    (h : binaryAlu op a b s = .next t) :
    (∃ ra rb : Reg, ∃ v, a = ra.byte ∧ b = rb.byte ∧ op (s.reg ra) (s.reg rb) = .ok v ∧
      t = advance 3 (s.setReg ra v)) ∨ ∃ k, t = takeError k s := by
  rcases commit_cases h with h | ⟨k, _, ht⟩
  · obtain ⟨⟨ra, rb⟩, hp, h⟩ := bind_eq_ok h
    obtain ⟨v, hv, h⟩ := bind_eq_ok h
    obtain ⟨ha, hb⟩ := regOperands_eq_ok hp
    exact .inl ⟨ra, rb, v, ha, hb, hv, (Except.ok.inj h).symm⟩
  · exact .inr ⟨k, ht⟩

theorem binaryAlu_ok {op : Byte → Byte → Except ErrorKind Byte} {ra rb : Reg} {s : State} {v : Byte}
    (h : op (s.reg ra) (s.reg rb) = .ok v) : binaryAlu op ra.byte rb.byte s = .next (advance 3 (s.setReg ra v)) := by
  simp [binaryAlu, h]

theorem binaryAlu_error {op : Byte → Byte → Except ErrorKind Byte} {ra rb : Reg} {s : State} {k : ErrorKind}
    (h : op (s.reg ra) (s.reg rb) = .error k) : binaryAlu op ra.byte rb.byte s = .next (takeError k s) := by
  simp [binaryAlu, h]

theorem binaryAlu_illegal (op : Byte → Byte → Except ErrorKind Byte) {a b : Byte} (h : 7 < a.toNat ∨ 7 < b.toNat)
    (s : State) : binaryAlu op a b s = .next (takeError .addressingError s) := by
  simp [binaryAlu, regOperands_illegal h]

/-- A one-register ALU instruction either writes its result and moves on, or takes an error. -/
theorem unaryAlu_cases {op : Byte → Byte} {a : Byte} {s t : State} (h : unaryAlu op a s = .next t) :
    (∃ ra : Reg, a = ra.byte ∧ t = advance 2 (s.setReg ra (op (s.reg ra)))) ∨ ∃ k, t = takeError k s := by
  rcases commit_cases h with h | ⟨k, _, ht⟩
  · obtain ⟨ra, ha, h⟩ := bind_eq_ok h
    exact .inl ⟨ra, regOperand_eq_ok ha, (Except.ok.inj h).symm⟩
  · exact .inr ⟨k, ht⟩

@[simp] theorem unaryAlu_byte (op : Byte → Byte) (ra : Reg) (s : State) :
    unaryAlu op ra.byte s = .next (advance 2 (s.setReg ra (op (s.reg ra)))) := by
  simp [unaryAlu]

theorem unaryAlu_illegal (op : Byte → Byte) {a : Byte} (h : 7 < a.toNat) (s : State) :
    unaryAlu op a s = .next (takeError .addressingError s) := by
  simp [unaryAlu, regOperand_illegal h]

/-! ## The other meanings: one inversion each -/

theorem execCmp_cases {a b : Byte} {s t : State} (h : execCmp a b s = .next t) :
    (∃ ra rb : Reg, a = ra.byte ∧ b = rb.byte ∧
      t = advance 3 (setFlags (compareFlags (s.reg ra) (s.reg rb)) s)) ∨ ∃ k, t = takeError k s := by
  rcases commit_cases h with h | ⟨k, _, ht⟩
  · obtain ⟨⟨ra, rb⟩, hp, h⟩ := bind_eq_ok h
    obtain ⟨ha, hb⟩ := regOperands_eq_ok hp
    exact .inl ⟨ra, rb, ha, hb, (Except.ok.inj h).symm⟩
  · exact .inr ⟨k, ht⟩

theorem execJmp_cases {a : Byte} {s t : State} (h : execJmp a s = .next t) :
    (∃ ra : Reg, a = ra.byte ∧ t = jump (s.reg ra) s) ∨ ∃ k, t = takeError k s := by
  rcases commit_cases h with h | ⟨k, _, ht⟩
  · obtain ⟨ra, ha, h⟩ := bind_eq_ok h
    exact .inl ⟨ra, regOperand_eq_ok ha, (Except.ok.inj h).symm⟩
  · exact .inr ⟨k, ht⟩

theorem execJeq_cases {a : Byte} {s t : State} (h : execJeq a s = .next t) :
    (∃ ra : Reg, a = ra.byte ∧ t = branch s.fl.E (s.reg ra) s) ∨ ∃ k, t = takeError k s := by
  rcases commit_cases h with h | ⟨k, _, ht⟩
  · obtain ⟨ra, ha, h⟩ := bind_eq_ok h
    exact .inl ⟨ra, regOperand_eq_ok ha, (Except.ok.inj h).symm⟩
  · exact .inr ⟨k, ht⟩

theorem execJne_cases {a : Byte} {s t : State} (h : execJne a s = .next t) :
    (∃ ra : Reg, a = ra.byte ∧ t = branch (!s.fl.E) (s.reg ra) s) ∨ ∃ k, t = takeError k s := by
  rcases commit_cases h with h | ⟨k, _, ht⟩
  · obtain ⟨ra, ha, h⟩ := bind_eq_ok h
    exact .inl ⟨ra, regOperand_eq_ok ha, (Except.ok.inj h).symm⟩
  · exact .inr ⟨k, ht⟩

theorem execPrn_cases {a : Byte} {s t : State} (h : execPrn a s = .next t) :
    (∃ ra : Reg, a = ra.byte ∧ t = advance 2 (emit (s.reg ra) s)) ∨ ∃ k, t = takeError k s := by
  rcases commit_cases h with h | ⟨k, _, ht⟩
  · obtain ⟨ra, ha, h⟩ := bind_eq_ok h
    exact .inl ⟨ra, regOperand_eq_ok ha, (Except.ok.inj h).symm⟩
  · exact .inr ⟨k, ht⟩

theorem execLdi_cases {a imm : Byte} {s t : State} (h : execLdi a imm s = .next t) :
    (∃ ra : Reg, a = ra.byte ∧ t = advance 3 (s.setReg ra imm)) ∨ ∃ k, t = takeError k s := by
  rcases commit_cases h with h | ⟨k, _, ht⟩
  · obtain ⟨ra, ha, h⟩ := bind_eq_ok h
    exact .inl ⟨ra, regOperand_eq_ok ha, (Except.ok.inj h).symm⟩
  · exact .inr ⟨k, ht⟩

theorem execHlt_cases {s t : State} (h : execHlt s = .next t) : t = halt (advance 1 s) :=
  (Host.Outcome.next.inj h).symm

theorem execPush_cases {a : Byte} {s t : State} (h : execPush a s = .next t) :
    (∃ ra : Reg, a = ra.byte ∧ s.reg .r7 ≠ 0 ∧ t = advance 2 (pushed (s.reg ra) s)) ∨ ∃ k, t = takeError k s := by
  rcases commit_cases h with h | ⟨k, _, ht⟩
  · obtain ⟨ra, ha, h⟩ := bind_eq_ok h
    obtain ⟨u, hu, h⟩ := bind_eq_ok h
    obtain ⟨h0, rfl⟩ := push_eq_ok hu
    exact .inl ⟨ra, regOperand_eq_ok ha, h0, (Except.ok.inj h).symm⟩
  · exact .inr ⟨k, ht⟩

theorem execPop_cases {a : Byte} {s t : State} (h : execPop a s = .next t) :
    (∃ ra : Reg, a = ra.byte ∧ s.reg .r7 ≠ 255 ∧
      t = advance 2 ((s.setReg .r7 (s.reg .r7 + 1)).setReg ra (s.mem.read (s.reg .r7).toNat))) ∨
    ∃ k, t = takeError k s := by
  rcases commit_cases h with h | ⟨k, _, ht⟩
  · obtain ⟨ra, ha, h⟩ := bind_eq_ok h
    obtain ⟨p, hp, h⟩ := bind_eq_ok h
    obtain ⟨h0, rfl⟩ := pop_eq_ok hp
    exact .inl ⟨ra, regOperand_eq_ok ha, h0, (Except.ok.inj h).symm⟩
  · exact .inr ⟨k, ht⟩

theorem execCall_cases {a : Byte} {s t : State} (h : execCall a s = .next t) :
    (∃ ra : Reg, a = ra.byte ∧ s.pc.toNat + 2 < 256 ∧ s.reg .r7 ≠ 0 ∧
      t = jump (s.reg ra) (pushed (BitVec.ofNat 8 (s.pc.toNat + 2)) s)) ∨ ∃ k, t = takeError k s := by
  rcases commit_cases h with h | ⟨k, _, ht⟩
  · obtain ⟨ra, ha, h⟩ := bind_eq_ok h
    obtain ⟨v, hv, h⟩ := bind_eq_ok h
    obtain ⟨u, hu, h⟩ := bind_eq_ok h
    obtain ⟨hp, rfl⟩ := returnAddress_eq_ok hv
    obtain ⟨h0, rfl⟩ := push_eq_ok hu
    exact .inl ⟨ra, regOperand_eq_ok ha, hp, h0, (Except.ok.inj h).symm⟩
  · exact .inr ⟨k, ht⟩

theorem execRet_cases {s t : State} (h : execRet s = .next t) :
    (s.reg .r7 ≠ 255 ∧ t = jump (s.mem.read (s.reg .r7).toNat) (s.setReg .r7 (s.reg .r7 + 1))) ∨
    ∃ k, t = takeError k s := by
  rcases commit_cases h with h | ⟨k, _, ht⟩
  · obtain ⟨p, hp, h⟩ := bind_eq_ok h
    obtain ⟨h0, rfl⟩ := pop_eq_ok hp
    exact .inl ⟨h0, (Except.ok.inj h).symm⟩
  · exact .inr ⟨k, ht⟩

/-! ## The next state on register operands -/

theorem execAdd_byte (ra rb : Reg) (s : State) :
    execAdd ra.byte rb.byte s = .next (advance 3 (s.setReg ra (aluAdd (s.reg ra) (s.reg rb)))) := binaryAlu_ok rfl

theorem execSub_byte (ra rb : Reg) (s : State) :
    execSub ra.byte rb.byte s = .next (advance 3 (s.setReg ra (aluSub (s.reg ra) (s.reg rb)))) := binaryAlu_ok rfl

theorem execMul_byte (ra rb : Reg) (s : State) :
    execMul ra.byte rb.byte s = .next (advance 3 (s.setReg ra (aluMul (s.reg ra) (s.reg rb)))) := binaryAlu_ok rfl

theorem execAnd_byte (ra rb : Reg) (s : State) :
    execAnd ra.byte rb.byte s = .next (advance 3 (s.setReg ra (aluAnd (s.reg ra) (s.reg rb)))) := binaryAlu_ok rfl

theorem execXor_byte (ra rb : Reg) (s : State) :
    execXor ra.byte rb.byte s = .next (advance 3 (s.setReg ra (aluXor (s.reg ra) (s.reg rb)))) := binaryAlu_ok rfl

theorem execShl_byte (ra rb : Reg) (s : State) :
    execShl ra.byte rb.byte s = .next (advance 3 (s.setReg ra (aluShl (s.reg ra) (s.reg rb)))) := binaryAlu_ok rfl

theorem execShr_byte (ra rb : Reg) (s : State) :
    execShr ra.byte rb.byte s = .next (advance 3 (s.setReg ra (aluShr (s.reg ra) (s.reg rb)))) := binaryAlu_ok rfl

theorem execInc_byte (ra : Reg) (s : State) :
    execInc ra.byte s = .next (advance 2 (s.setReg ra (aluInc (s.reg ra)))) := unaryAlu_byte _ ra s

theorem execDec_byte (ra : Reg) (s : State) :
    execDec ra.byte s = .next (advance 2 (s.setReg ra (aluDec (s.reg ra)))) := unaryAlu_byte _ ra s

theorem execNot_byte (ra : Reg) (s : State) :
    execNot ra.byte s = .next (advance 2 (s.setReg ra (aluNot (s.reg ra)))) := unaryAlu_byte _ ra s

theorem execCmp_byte (ra rb : Reg) (s : State) :
    execCmp ra.byte rb.byte s = .next (advance 3 (setFlags (compareFlags (s.reg ra) (s.reg rb)) s)) := by
  simp [execCmp]

theorem execJmp_byte (ra : Reg) (s : State) : execJmp ra.byte s = .next (jump (s.reg ra) s) := by
  simp [execJmp]

theorem execJeq_byte (ra : Reg) (s : State) : execJeq ra.byte s = .next (branch s.fl.E (s.reg ra) s) := by
  simp [execJeq]

theorem execJne_byte (ra : Reg) (s : State) : execJne ra.byte s = .next (branch (!s.fl.E) (s.reg ra) s) := by
  simp [execJne]

theorem execPrn_byte (ra : Reg) (s : State) : execPrn ra.byte s = .next (advance 2 (emit (s.reg ra) s)) := by
  simp [execPrn]

theorem execLdi_byte (ra : Reg) (imm : Byte) (s : State) :
    execLdi ra.byte imm s = .next (advance 3 (s.setReg ra imm)) := by
  simp [execLdi]

theorem execPush_byte (ra : Reg) {s : State} (h : s.reg .r7 ≠ 0) :
    execPush ra.byte s = .next (advance 2 (pushed (s.reg ra) s)) := by
  simp [execPush, push_ok h]

theorem execPush_underflow (ra : Reg) {s : State} (h : s.reg .r7 = 0) :
    execPush ra.byte s = .next (takeError .addressingError s) := by
  simp [execPush, push_underflow h]

theorem execPop_byte (ra : Reg) {s : State} (h : s.reg .r7 ≠ 255) :
    execPop ra.byte s =
      .next (advance 2 ((s.setReg .r7 (s.reg .r7 + 1)).setReg ra (s.mem.read (s.reg .r7).toNat))) := by
  simp [execPop, pop_ok h]

theorem execPop_overflow (ra : Reg) {s : State} (h : s.reg .r7 = 255) :
    execPop ra.byte s = .next (takeError .addressingError s) := by
  simp [execPop, pop_overflow h]

theorem execCall_byte (ra : Reg) {s : State} (hpc : s.pc.toNat + 2 < 256) (h : s.reg .r7 ≠ 0) :
    execCall ra.byte s = .next (jump (s.reg ra) (pushed (BitVec.ofNat 8 (s.pc.toNat + 2)) s)) := by
  simp [execCall, returnAddress_ok hpc, push_ok h]

theorem execCall_error (ra : Reg) {s : State} (h : 253 < s.pc.toNat ∨ s.reg .r7 = 0) :
    execCall ra.byte s = .next (takeError .addressingError s) := by
  by_cases hpc : s.pc.toNat + 2 < 256
  · simp [execCall, returnAddress_ok hpc, push_underflow (h.resolve_left (by omega))]
  · simp [execCall, returnAddress_illegal (s := s) (by omega)]

theorem execRet_ok {s : State} (h : s.reg .r7 ≠ 255) :
    execRet s = .next (jump (s.mem.read (s.reg .r7).toNat) (s.setReg .r7 (s.reg .r7 + 1))) := by
  simp [execRet, pop_ok h]

theorem execRet_overflow {s : State} (h : s.reg .r7 = 255) :
    execRet s = .next (takeError .addressingError s) := by
  simp [execRet, pop_overflow h]

/-! ## A register operand byte of 8..255 (R24) -/

theorem execAdd_illegal {a b : Byte} (h : 7 < a.toNat ∨ 7 < b.toNat) (s : State) :
    execAdd a b s = .next (takeError .addressingError s) := by
  rw [execAdd, binaryAlu_illegal _ h]

theorem execSub_illegal {a b : Byte} (h : 7 < a.toNat ∨ 7 < b.toNat) (s : State) :
    execSub a b s = .next (takeError .addressingError s) := by
  rw [execSub, binaryAlu_illegal _ h]

theorem execMul_illegal {a b : Byte} (h : 7 < a.toNat ∨ 7 < b.toNat) (s : State) :
    execMul a b s = .next (takeError .addressingError s) := by
  rw [execMul, binaryAlu_illegal _ h]

theorem execDiv_illegal {a b : Byte} (h : 7 < a.toNat ∨ 7 < b.toNat) (s : State) :
    execDiv a b s = .next (takeError .addressingError s) := by
  rw [execDiv, binaryAlu_illegal _ h]

theorem execMod_illegal {a b : Byte} (h : 7 < a.toNat ∨ 7 < b.toNat) (s : State) :
    execMod a b s = .next (takeError .addressingError s) := by
  rw [execMod, binaryAlu_illegal _ h]

theorem execAnd_illegal {a b : Byte} (h : 7 < a.toNat ∨ 7 < b.toNat) (s : State) :
    execAnd a b s = .next (takeError .addressingError s) := by
  rw [execAnd, binaryAlu_illegal _ h]

theorem execXor_illegal {a b : Byte} (h : 7 < a.toNat ∨ 7 < b.toNat) (s : State) :
    execXor a b s = .next (takeError .addressingError s) := by
  rw [execXor, binaryAlu_illegal _ h]

theorem execShl_illegal {a b : Byte} (h : 7 < a.toNat ∨ 7 < b.toNat) (s : State) :
    execShl a b s = .next (takeError .addressingError s) := by
  rw [execShl, binaryAlu_illegal _ h]

theorem execShr_illegal {a b : Byte} (h : 7 < a.toNat ∨ 7 < b.toNat) (s : State) :
    execShr a b s = .next (takeError .addressingError s) := by
  rw [execShr, binaryAlu_illegal _ h]

theorem execInc_illegal {a : Byte} (h : 7 < a.toNat) (s : State) :
    execInc a s = .next (takeError .addressingError s) := by
  rw [execInc, unaryAlu_illegal _ h]

theorem execDec_illegal {a : Byte} (h : 7 < a.toNat) (s : State) :
    execDec a s = .next (takeError .addressingError s) := by
  rw [execDec, unaryAlu_illegal _ h]

theorem execNot_illegal {a : Byte} (h : 7 < a.toNat) (s : State) :
    execNot a s = .next (takeError .addressingError s) := by
  rw [execNot, unaryAlu_illegal _ h]

theorem execCmp_illegal {a b : Byte} (h : 7 < a.toNat ∨ 7 < b.toNat) (s : State) :
    execCmp a b s = .next (takeError .addressingError s) := by
  simp [execCmp, regOperands_illegal h]

theorem execLdi_illegal {a : Byte} (h : 7 < a.toNat) (imm : Byte) (s : State) :
    execLdi a imm s = .next (takeError .addressingError s) := by
  simp [execLdi, regOperand_illegal h]

theorem execJmp_illegal {a : Byte} (h : 7 < a.toNat) (s : State) :
    execJmp a s = .next (takeError .addressingError s) := by
  simp [execJmp, regOperand_illegal h]

theorem execJeq_illegal {a : Byte} (h : 7 < a.toNat) (s : State) :
    execJeq a s = .next (takeError .addressingError s) := by
  simp [execJeq, regOperand_illegal h]

theorem execJne_illegal {a : Byte} (h : 7 < a.toNat) (s : State) :
    execJne a s = .next (takeError .addressingError s) := by
  simp [execJne, regOperand_illegal h]

theorem execCall_illegal {a : Byte} (h : 7 < a.toNat) (s : State) :
    execCall a s = .next (takeError .addressingError s) := by
  simp [execCall, regOperand_illegal h]

theorem execPush_illegal {a : Byte} (h : 7 < a.toNat) (s : State) :
    execPush a s = .next (takeError .addressingError s) := by
  simp [execPush, regOperand_illegal h]

theorem execPop_illegal {a : Byte} (h : 7 < a.toNat) (s : State) :
    execPop a s = .next (takeError .addressingError s) := by
  simp [execPop, regOperand_illegal h]

theorem execPrn_illegal {a : Byte} (h : 7 < a.toNat) (s : State) :
    execPrn a s = .next (takeError .addressingError s) := by
  simp [execPrn, regOperand_illegal h]

/-! ## What an instruction can do, said once for all of them -/

/-- The effects of the instructions that raise no error: from state to next state, by the rule of each. -/
inductive Effect : Instr → State → State → Prop
  | hlt (s : State) : Effect .hlt s (halt (advance 1 s))
  | ret (s : State) : s.reg .r7 ≠ 255 →
      Effect .ret s (jump (s.mem.read (s.reg .r7).toNat) (s.setReg .r7 (s.reg .r7 + 1)))
  | push (a : Reg) (s : State) : s.reg .r7 ≠ 0 → Effect (.push a.byte) s (advance 2 (pushed (s.reg a) s))
  | pop (a : Reg) (s : State) : s.reg .r7 ≠ 255 →
      Effect (.pop a.byte) s
        (advance 2 ((s.setReg .r7 (s.reg .r7 + 1)).setReg a (s.mem.read (s.reg .r7).toNat)))
  | prn (a : Reg) (s : State) : Effect (.prn a.byte) s (advance 2 (emit (s.reg a) s))
  | call (a : Reg) (s : State) : s.pc.toNat + 2 < 256 → s.reg .r7 ≠ 0 →
      Effect (.call a.byte) s (jump (s.reg a) (pushed (BitVec.ofNat 8 (s.pc.toNat + 2)) s))
  | jmp (a : Reg) (s : State) : Effect (.jmp a.byte) s (jump (s.reg a) s)
  | jeq (a : Reg) (s : State) : Effect (.jeq a.byte) s (branch s.fl.E (s.reg a) s)
  | jne (a : Reg) (s : State) : Effect (.jne a.byte) s (branch (!s.fl.E) (s.reg a) s)
  | inc (a : Reg) (s : State) : Effect (.inc a.byte) s (advance 2 (s.setReg a (aluInc (s.reg a))))
  | dec (a : Reg) (s : State) : Effect (.dec a.byte) s (advance 2 (s.setReg a (aluDec (s.reg a))))
  | not (a : Reg) (s : State) : Effect (.not a.byte) s (advance 2 (s.setReg a (aluNot (s.reg a))))
  | ldi (a : Reg) (imm : Byte) (s : State) : Effect (.ldi a.byte imm) s (advance 3 (s.setReg a imm))
  | add (a b : Reg) (s : State) :
      Effect (.add a.byte b.byte) s (advance 3 (s.setReg a (aluAdd (s.reg a) (s.reg b))))
  | sub (a b : Reg) (s : State) :
      Effect (.sub a.byte b.byte) s (advance 3 (s.setReg a (aluSub (s.reg a) (s.reg b))))
  | mul (a b : Reg) (s : State) :
      Effect (.mul a.byte b.byte) s (advance 3 (s.setReg a (aluMul (s.reg a) (s.reg b))))
  | div (a b : Reg) (s : State) (v : Byte) : aluDiv (s.reg a) (s.reg b) = .ok v →
      Effect (.div a.byte b.byte) s (advance 3 (s.setReg a v))
  | mod (a b : Reg) (s : State) (v : Byte) : aluMod (s.reg a) (s.reg b) = .ok v →
      Effect (.mod a.byte b.byte) s (advance 3 (s.setReg a v))
  | cmp (a b : Reg) (s : State) :
      Effect (.cmp a.byte b.byte) s (advance 3 (setFlags (compareFlags (s.reg a) (s.reg b)) s))
  | and (a b : Reg) (s : State) :
      Effect (.and a.byte b.byte) s (advance 3 (s.setReg a (aluAnd (s.reg a) (s.reg b))))
  | xor (a b : Reg) (s : State) :
      Effect (.xor a.byte b.byte) s (advance 3 (s.setReg a (aluXor (s.reg a) (s.reg b))))
  | shl (a b : Reg) (s : State) :
      Effect (.shl a.byte b.byte) s (advance 3 (s.setReg a (aluShl (s.reg a) (s.reg b))))
  | shr (a b : Reg) (s : State) :
      Effect (.shr a.byte b.byte) s (advance 3 (s.setReg a (aluShr (s.reg a) (s.reg b))))

/-- A two-register ALU operation that cannot fail, inverted to its result. -/
theorem binaryAlu_pure_cases {f : Byte → Byte → Byte} {a b : Byte} {s t : State}
    (h : binaryAlu (fun A B => .ok (f A B)) a b s = .next t) :
    (∃ ra rb : Reg, a = ra.byte ∧ b = rb.byte ∧ t = advance 3 (s.setReg ra (f (s.reg ra) (s.reg rb)))) ∨
    ∃ k, t = takeError k s := by
  rcases binaryAlu_cases h with ⟨ra, rb, v, ha, hb, hv, ht⟩ | h
  · cases hv
    exact .inl ⟨ra, rb, ha, hb, ht⟩
  · exact .inr h

/-- An instruction either has its effect or takes an error. -/
theorem exec_cases {i : Instr} {s t : State} (h : exec i s = .next t) : Effect i s t ∨ ∃ k, t = takeError k s := by
  cases i with
  | hlt => rw [execHlt_cases h]; exact .inl (.hlt s)
  | ret => exact (execRet_cases h).imp_left fun ⟨h0, ht⟩ => ht ▸ .ret s h0
  | push a => exact (execPush_cases h).imp_left fun ⟨ra, ha, h0, ht⟩ => ht ▸ ha ▸ .push ra s h0
  | pop a => exact (execPop_cases h).imp_left fun ⟨ra, ha, h0, ht⟩ => ht ▸ ha ▸ .pop ra s h0
  | prn a => exact (execPrn_cases h).imp_left fun ⟨ra, ha, ht⟩ => ht ▸ ha ▸ .prn ra s
  | call a => exact (execCall_cases h).imp_left fun ⟨ra, ha, hp, h0, ht⟩ => ht ▸ ha ▸ .call ra s hp h0
  | jmp a => exact (execJmp_cases h).imp_left fun ⟨ra, ha, ht⟩ => ht ▸ ha ▸ .jmp ra s
  | jeq a => exact (execJeq_cases h).imp_left fun ⟨ra, ha, ht⟩ => ht ▸ ha ▸ .jeq ra s
  | jne a => exact (execJne_cases h).imp_left fun ⟨ra, ha, ht⟩ => ht ▸ ha ▸ .jne ra s
  | inc a => exact (unaryAlu_cases h).imp_left fun ⟨ra, ha, ht⟩ => ht ▸ ha ▸ .inc ra s
  | dec a => exact (unaryAlu_cases h).imp_left fun ⟨ra, ha, ht⟩ => ht ▸ ha ▸ .dec ra s
  | not a => exact (unaryAlu_cases h).imp_left fun ⟨ra, ha, ht⟩ => ht ▸ ha ▸ .not ra s
  | ldi a imm => exact (execLdi_cases h).imp_left fun ⟨ra, ha, ht⟩ => ht ▸ ha ▸ .ldi ra imm s
  | add a b => exact (binaryAlu_pure_cases h).imp_left fun ⟨ra, rb, ha, hb, ht⟩ => ht ▸ ha ▸ hb ▸ .add ra rb s
  | sub a b => exact (binaryAlu_pure_cases h).imp_left fun ⟨ra, rb, ha, hb, ht⟩ => ht ▸ ha ▸ hb ▸ .sub ra rb s
  | mul a b => exact (binaryAlu_pure_cases h).imp_left fun ⟨ra, rb, ha, hb, ht⟩ => ht ▸ ha ▸ hb ▸ .mul ra rb s
  | div a b => exact (binaryAlu_cases h).imp_left fun ⟨ra, rb, v, ha, hb, hv, ht⟩ => ht ▸ ha ▸ hb ▸ .div ra rb s v hv
  | mod a b => exact (binaryAlu_cases h).imp_left fun ⟨ra, rb, v, ha, hb, hv, ht⟩ => ht ▸ ha ▸ hb ▸ .mod ra rb s v hv
  | cmp a b => exact (execCmp_cases h).imp_left fun ⟨ra, rb, ha, hb, ht⟩ => ht ▸ ha ▸ hb ▸ .cmp ra rb s
  | and a b => exact (binaryAlu_pure_cases h).imp_left fun ⟨ra, rb, ha, hb, ht⟩ => ht ▸ ha ▸ hb ▸ .and ra rb s
  | xor a b => exact (binaryAlu_pure_cases h).imp_left fun ⟨ra, rb, ha, hb, ht⟩ => ht ▸ ha ▸ hb ▸ .xor ra rb s
  | shl a b => exact (binaryAlu_pure_cases h).imp_left fun ⟨ra, rb, ha, hb, ht⟩ => ht ▸ ha ▸ hb ▸ .shl ra rb s
  | shr a b => exact (binaryAlu_pure_cases h).imp_left fun ⟨ra, rb, ha, hb, ht⟩ => ht ▸ ha ▸ hb ▸ .shr ra rb s

end Sys2Proof.Machine
end

