-- ==== Sys2Proof/Laws/PerInstr.lean ====
section
/-! SUPPORT. The per-instruction families of LAWS.json: a statement about one instruction as syntax, and one lemma per
constructor. -/

namespace Sys2Proof.Laws

/-- The opcode's count field is the number of operand bytes the encoder writes, and is never 3 (R56, R57). -/
def OpcodeCount.Statement (i : Instr) : Prop := opCount (opcode i) = (operands i).length ∧ (operands i).length ≤ 2

theorem OpcodeCount.hlt : OpcodeCount.Statement .hlt := by
  simp [OpcodeCount.Statement, opCount_toNat, opcode, operands]
theorem OpcodeCount.ret : OpcodeCount.Statement .ret := by
  simp [OpcodeCount.Statement, opCount_toNat, opcode, operands]
theorem OpcodeCount.push (a : Byte) : OpcodeCount.Statement (.push a) := by
  simp [OpcodeCount.Statement, opCount_toNat, opcode, operands]
theorem OpcodeCount.pop (a : Byte) : OpcodeCount.Statement (.pop a) := by
  simp [OpcodeCount.Statement, opCount_toNat, opcode, operands]
theorem OpcodeCount.prn (a : Byte) : OpcodeCount.Statement (.prn a) := by
  simp [OpcodeCount.Statement, opCount_toNat, opcode, operands]
theorem OpcodeCount.call (a : Byte) : OpcodeCount.Statement (.call a) := by
  simp [OpcodeCount.Statement, opCount_toNat, opcode, operands]
theorem OpcodeCount.jmp (a : Byte) : OpcodeCount.Statement (.jmp a) := by
  simp [OpcodeCount.Statement, opCount_toNat, opcode, operands]
theorem OpcodeCount.jeq (a : Byte) : OpcodeCount.Statement (.jeq a) := by
  simp [OpcodeCount.Statement, opCount_toNat, opcode, operands]
theorem OpcodeCount.jne (a : Byte) : OpcodeCount.Statement (.jne a) := by
  simp [OpcodeCount.Statement, opCount_toNat, opcode, operands]
theorem OpcodeCount.inc (a : Byte) : OpcodeCount.Statement (.inc a) := by
  simp [OpcodeCount.Statement, opCount_toNat, opcode, operands]
theorem OpcodeCount.dec (a : Byte) : OpcodeCount.Statement (.dec a) := by
  simp [OpcodeCount.Statement, opCount_toNat, opcode, operands]
theorem OpcodeCount.not (a : Byte) : OpcodeCount.Statement (.not a) := by
  simp [OpcodeCount.Statement, opCount_toNat, opcode, operands]
theorem OpcodeCount.ldi (a b : Byte) : OpcodeCount.Statement (.ldi a b) := by
  simp [OpcodeCount.Statement, opCount_toNat, opcode, operands]
theorem OpcodeCount.add (a b : Byte) : OpcodeCount.Statement (.add a b) := by
  simp [OpcodeCount.Statement, opCount_toNat, opcode, operands]
theorem OpcodeCount.sub (a b : Byte) : OpcodeCount.Statement (.sub a b) := by
  simp [OpcodeCount.Statement, opCount_toNat, opcode, operands]
theorem OpcodeCount.mul (a b : Byte) : OpcodeCount.Statement (.mul a b) := by
  simp [OpcodeCount.Statement, opCount_toNat, opcode, operands]
theorem OpcodeCount.div (a b : Byte) : OpcodeCount.Statement (.div a b) := by
  simp [OpcodeCount.Statement, opCount_toNat, opcode, operands]
theorem OpcodeCount.mod (a b : Byte) : OpcodeCount.Statement (.mod a b) := by
  simp [OpcodeCount.Statement, opCount_toNat, opcode, operands]
theorem OpcodeCount.cmp (a b : Byte) : OpcodeCount.Statement (.cmp a b) := by
  simp [OpcodeCount.Statement, opCount_toNat, opcode, operands]
theorem OpcodeCount.and (a b : Byte) : OpcodeCount.Statement (.and a b) := by
  simp [OpcodeCount.Statement, opCount_toNat, opcode, operands]
theorem OpcodeCount.xor (a b : Byte) : OpcodeCount.Statement (.xor a b) := by
  simp [OpcodeCount.Statement, opCount_toNat, opcode, operands]
theorem OpcodeCount.shl (a b : Byte) : OpcodeCount.Statement (.shl a b) := by
  simp [OpcodeCount.Statement, opCount_toNat, opcode, operands]
theorem OpcodeCount.shr (a b : Byte) : OpcodeCount.Statement (.shr a b) := by
  simp [OpcodeCount.Statement, opCount_toNat, opcode, operands]

/-- The opcode map reads an instruction back from its opcode and operand bytes (R62). -/
def OpcodeMap.Statement (i : Instr) : Prop :=
  ∀ rest, decodeOp (opcode i) (operandByte (opCount (opcode i)) 0 (operands i ++ rest))
    (operandByte (opCount (opcode i)) 1 (operands i ++ rest)) = some i

theorem OpcodeMap.hlt : OpcodeMap.Statement .hlt := by
  simp [OpcodeMap.Statement, opcode, decodeOp]
theorem OpcodeMap.ret : OpcodeMap.Statement .ret := by
  simp [OpcodeMap.Statement, opcode, decodeOp]
theorem OpcodeMap.push (a : Byte) : OpcodeMap.Statement (.push a) := by
  simp [OpcodeMap.Statement, opCount_toNat, opcode, operands, operandByte, decodeOp]
theorem OpcodeMap.pop (a : Byte) : OpcodeMap.Statement (.pop a) := by
  simp [OpcodeMap.Statement, opCount_toNat, opcode, operands, operandByte, decodeOp]
theorem OpcodeMap.prn (a : Byte) : OpcodeMap.Statement (.prn a) := by
  simp [OpcodeMap.Statement, opCount_toNat, opcode, operands, operandByte, decodeOp]
theorem OpcodeMap.call (a : Byte) : OpcodeMap.Statement (.call a) := by
  simp [OpcodeMap.Statement, opCount_toNat, opcode, operands, operandByte, decodeOp]
theorem OpcodeMap.jmp (a : Byte) : OpcodeMap.Statement (.jmp a) := by
  simp [OpcodeMap.Statement, opCount_toNat, opcode, operands, operandByte, decodeOp]
theorem OpcodeMap.jeq (a : Byte) : OpcodeMap.Statement (.jeq a) := by
  simp [OpcodeMap.Statement, opCount_toNat, opcode, operands, operandByte, decodeOp]
theorem OpcodeMap.jne (a : Byte) : OpcodeMap.Statement (.jne a) := by
  simp [OpcodeMap.Statement, opCount_toNat, opcode, operands, operandByte, decodeOp]
theorem OpcodeMap.inc (a : Byte) : OpcodeMap.Statement (.inc a) := by
  simp [OpcodeMap.Statement, opCount_toNat, opcode, operands, operandByte, decodeOp]
theorem OpcodeMap.dec (a : Byte) : OpcodeMap.Statement (.dec a) := by
  simp [OpcodeMap.Statement, opCount_toNat, opcode, operands, operandByte, decodeOp]
theorem OpcodeMap.not (a : Byte) : OpcodeMap.Statement (.not a) := by
  simp [OpcodeMap.Statement, opCount_toNat, opcode, operands, operandByte, decodeOp]
theorem OpcodeMap.ldi (a b : Byte) : OpcodeMap.Statement (.ldi a b) := by
  simp [OpcodeMap.Statement, opCount_toNat, opcode, operands, operandByte, decodeOp]
theorem OpcodeMap.add (a b : Byte) : OpcodeMap.Statement (.add a b) := by
  simp [OpcodeMap.Statement, opCount_toNat, opcode, operands, operandByte, decodeOp]
theorem OpcodeMap.sub (a b : Byte) : OpcodeMap.Statement (.sub a b) := by
  simp [OpcodeMap.Statement, opCount_toNat, opcode, operands, operandByte, decodeOp]
theorem OpcodeMap.mul (a b : Byte) : OpcodeMap.Statement (.mul a b) := by
  simp [OpcodeMap.Statement, opCount_toNat, opcode, operands, operandByte, decodeOp]
theorem OpcodeMap.div (a b : Byte) : OpcodeMap.Statement (.div a b) := by
  simp [OpcodeMap.Statement, opCount_toNat, opcode, operands, operandByte, decodeOp]
theorem OpcodeMap.mod (a b : Byte) : OpcodeMap.Statement (.mod a b) := by
  simp [OpcodeMap.Statement, opCount_toNat, opcode, operands, operandByte, decodeOp]
theorem OpcodeMap.cmp (a b : Byte) : OpcodeMap.Statement (.cmp a b) := by
  simp [OpcodeMap.Statement, opCount_toNat, opcode, operands, operandByte, decodeOp]
theorem OpcodeMap.and (a b : Byte) : OpcodeMap.Statement (.and a b) := by
  simp [OpcodeMap.Statement, opCount_toNat, opcode, operands, operandByte, decodeOp]
theorem OpcodeMap.xor (a b : Byte) : OpcodeMap.Statement (.xor a b) := by
  simp [OpcodeMap.Statement, opCount_toNat, opcode, operands, operandByte, decodeOp]
theorem OpcodeMap.shl (a b : Byte) : OpcodeMap.Statement (.shl a b) := by
  simp [OpcodeMap.Statement, opCount_toNat, opcode, operands, operandByte, decodeOp]
theorem OpcodeMap.shr (a b : Byte) : OpcodeMap.Statement (.shr a b) := by
  simp [OpcodeMap.Statement, opCount_toNat, opcode, operands, operandByte, decodeOp]

end Sys2Proof.Laws
end

