-- ==== Sys2Proof/Laws/Step.lean ====
section
/-! SUPPORT. The step cycle: what the fetch reads, and what a step does in each run status. -/

namespace Sys2Proof.Machine

/-! ## The fetch -/

theorem fetchBytes_past_end {s : State} (h : 255 < s.pc.toNat) : fetchBytes s = [] := by
  have hr : ∀ k, memRead (s.pc.toNat + k) s = .error .addressingError := fun k => memRead_illegal (by omega) s
  simp [fetchBytes, hr, List.range_succ, Except.toOption]

theorem fetchBytes_at_255 {s : State} (h : s.pc.toNat = 255) : fetchBytes s = [s.mem.read 255] := by
  simp [fetchBytes, h, List.range_succ, memRead, Except.toOption]

theorem fetchBytes_at_254 {s : State} (h : s.pc.toNat = 254) :
    fetchBytes s = [s.mem.read 254, s.mem.read 255] := by
  simp [fetchBytes, h, List.range_succ, memRead, Except.toOption]

theorem fetchBytes_inside {s : State} (h : s.pc.toNat ≤ 253) :
    fetchBytes s =
      [s.mem.read s.pc.toNat, s.mem.read (s.pc.toNat + 1), s.mem.read (s.pc.toNat + 2)] := by
  simp [fetchBytes, List.range_succ, memRead_ok (show s.pc.toNat < 256 by omega),
    memRead_ok (show s.pc.toNat + 1 < 256 by omega), memRead_ok (show s.pc.toNat + 2 < 256 by omega), Except.toOption]

/-! ## The step -/

theorem step_running {s : State} (h : s.status = .running) : step s = runCycle s := by simp [step, h]

theorem step_stopped {s : State} (h : s.status ≠ .running) : step s = .next s := by
  unfold step stoppedStep
  split <;> simp_all

theorem runCycle_ok {s : State} {i : Instr} (h : fetchInstr s = .ok i) : runCycle s = exec i s := by
  simp [runCycle, h]

theorem runCycle_error {s : State} {k : ErrorKind} (h : fetchInstr s = .error k) :
    runCycle s = .next (takeError k s) := by
  simp [runCycle, h]

theorem fetchInstr_ok {s : State} {i : Instr} {rest : List Byte} (h : decode (fetchBytes s) = .ok (i, rest)) :
    fetchInstr s = .ok i := by
  simp [fetchInstr, h]

theorem fetchInstr_error {s : State} {e : DecodeError} (h : decode (fetchBytes s) = .error e) :
    fetchInstr s = .error (fetchError e) := by
  simp [fetchInstr, h]

/-- What a step that answers a next state can be: of a stopped block, an error in the fetch, or an instruction. -/
theorem step_cases {s t : State} (h : step s = .next t) :
    (s.status ≠ .running ∧ t = s) ∨
    (s.status = .running ∧ ∃ k, fetchInstr s = .error k ∧ t = takeError k s) ∨
    (s.status = .running ∧ ∃ i rest, decode (fetchBytes s) = .ok (i, rest) ∧ exec i s = .next t) := by
  by_cases hs : s.status = .running
  · rw [step_running hs] at h
    cases hd : decode (fetchBytes s) with
    | error e =>
      rw [runCycle_error (fetchInstr_error hd)] at h
      exact .inr (.inl ⟨hs, _, fetchInstr_error hd, (Host.Outcome.next.inj h).symm⟩)
    | ok p =>
      rw [runCycle_ok (fetchInstr_ok hd)] at h
      exact .inr (.inr ⟨hs, p.1, p.2, rfl, h⟩)
  · rw [step_stopped hs] at h
    exact .inl ⟨hs, (Host.Outcome.next.inj h).symm⟩

end Sys2Proof.Machine
end

