-- ==== Sys2Proof/Tests/Slice0.lean ====
section
/-! SUPPORT. The model's own tests. Expected results are the spec's: the decoding words are written out from
`30_encoding.md` R56 and R62, a vector W<n> or V<n> is the one of that number in `95_test_vectors.md`, and any other
result is worked out by hand from the rule its comment names. After the tests, for every statement with hypotheses, a
witness that meets them. -/

open Sys2Proof Sys2Proof.Machine

namespace Sys2Proof.Tests

/-- The construction state with `bytes` at `pc0`, the PC there, and the registers given. -/
def start (pc0 : Nat) (bytes : List Byte) (regs : List (Reg × Byte)) : State :=
  regs.foldl (fun s p => s.setReg p.1 p.2)
    { State.reset with pc := BitVec.ofNat 9 pc0, mem := storeBytes [] pc0 bytes }

/-- The state an outcome answers. -/
def after : Result → Option State
  | .next t => some t
  | .fault _ => none
  | .refused _ => none

/-- A register, the PC and the status after one step. -/
def stepReg (r : Reg) (s : State) : Option (Byte × Nat × Status) :=
  (after (step s)).map fun t => (t.reg r, t.pc.toNat, t.status)

/-- FL's byte and the PC after one step. -/
def stepFlags (s : State) : Option (Byte × Nat) := (after (step s)).map fun t => (t.fl.toByte, t.pc.toNat)

/-- The PC after one step. -/
def stepPc (s : State) : Option Nat := (after (step s)).map fun t => t.pc.toNat

/-- SP, one byte of memory and the PC after one step. -/
def stepStack (addr : Nat) (s : State) : Option (Byte × Byte × Nat) :=
  (after (step s)).map fun t => (t.sp, t.mem.read addr, t.pc.toNat)

/-- The state after one step is the one before with the error taken. -/
def stepRaises (k : ErrorKind) (s : State) : Bool := after (step s) = some { s with status := .error k }

/-- What the decoder reads, and the bytes it leaves. -/
def decoded (bytes : List Byte) : Option (Instr × List Byte) := (decode bytes).toOption

/-! ## Well-formedness: an ill-formed term for each check -/

theorem test_wf_refuses_push : (Instr.push 8).wf = false ∧ (Instr.push 7).wf = true := by decide

theorem test_wf_refuses_pop : (Instr.pop 8).wf = false ∧ (Instr.pop 7).wf = true := by decide

theorem test_wf_refuses_prn : (Instr.prn 8).wf = false ∧ (Instr.prn 7).wf = true := by decide

theorem test_wf_refuses_call : (Instr.call 8).wf = false ∧ (Instr.call 7).wf = true := by decide

theorem test_wf_refuses_jmp : (Instr.jmp 8).wf = false ∧ (Instr.jmp 7).wf = true := by decide

theorem test_wf_refuses_jeq : (Instr.jeq 8).wf = false ∧ (Instr.jeq 7).wf = true := by decide

theorem test_wf_refuses_jne : (Instr.jne 8).wf = false ∧ (Instr.jne 7).wf = true := by decide

theorem test_wf_refuses_inc : (Instr.inc 8).wf = false ∧ (Instr.inc 7).wf = true := by decide

theorem test_wf_refuses_dec : (Instr.dec 8).wf = false ∧ (Instr.dec 7).wf = true := by decide

theorem test_wf_refuses_not : (Instr.not 8).wf = false ∧ (Instr.not 7).wf = true := by decide

/-- The immediate is never checked (R100). -/
theorem test_wf_refuses_ldi : (Instr.ldi 8 0).wf = false ∧ (Instr.ldi 7 255).wf = true := by decide

theorem test_wf_refuses_add :
    (Instr.add 8 0).wf = false ∧ (Instr.add 0 255).wf = false ∧ (Instr.add 7 0).wf = true := by decide

theorem test_wf_refuses_sub :
    (Instr.sub 8 0).wf = false ∧ (Instr.sub 0 255).wf = false ∧ (Instr.sub 7 0).wf = true := by decide

theorem test_wf_refuses_mul :
    (Instr.mul 8 0).wf = false ∧ (Instr.mul 0 255).wf = false ∧ (Instr.mul 7 0).wf = true := by decide

theorem test_wf_refuses_div :
    (Instr.div 8 0).wf = false ∧ (Instr.div 0 255).wf = false ∧ (Instr.div 7 0).wf = true := by decide

theorem test_wf_refuses_mod :
    (Instr.mod 8 0).wf = false ∧ (Instr.mod 0 255).wf = false ∧ (Instr.mod 7 0).wf = true := by decide

theorem test_wf_refuses_cmp :
    (Instr.cmp 8 0).wf = false ∧ (Instr.cmp 0 255).wf = false ∧ (Instr.cmp 7 0).wf = true := by decide

theorem test_wf_refuses_and :
    (Instr.and 8 0).wf = false ∧ (Instr.and 0 255).wf = false ∧ (Instr.and 7 0).wf = true := by decide

theorem test_wf_refuses_xor :
    (Instr.xor 8 0).wf = false ∧ (Instr.xor 0 255).wf = false ∧ (Instr.xor 7 0).wf = true := by decide

theorem test_wf_refuses_shl :
    (Instr.shl 8 0).wf = false ∧ (Instr.shl 0 255).wf = false ∧ (Instr.shl 7 0).wf = true := by decide

theorem test_wf_refuses_shr :
    (Instr.shr 8 0).wf = false ∧ (Instr.shr 0 255).wf = false ∧ (Instr.shr 7 0).wf = true := by decide

/-! ## Decoding: one word for every instruction, bits in the order count, is_alu, sets_pc, ident -/

theorem test_decode_hlt : decoded [0b00000001, 0x01] = some (.hlt, [0x01]) := by decide

theorem test_decode_ret : decoded [0b00010001, 0x01] = some (.ret, [0x01]) := by decide

theorem test_decode_push : decoded [0b01000101, 0b00000110, 0x01] = some (.push 6, [0x01]) := by decide

theorem test_decode_pop : decoded [0b01000110, 0b00000110, 0x01] = some (.pop 6, [0x01]) := by decide

theorem test_decode_prn : decoded [0b01000111, 0b00000110, 0x01] = some (.prn 6, [0x01]) := by decide

theorem test_decode_call : decoded [0b01010000, 0b00000110, 0x01] = some (.call 6, [0x01]) := by decide

theorem test_decode_jmp : decoded [0b01010100, 0b00000110, 0x01] = some (.jmp 6, [0x01]) := by decide

theorem test_decode_jeq : decoded [0b01010101, 0b00000110, 0x01] = some (.jeq 6, [0x01]) := by decide

theorem test_decode_jne : decoded [0b01010110, 0b00000110, 0x01] = some (.jne 6, [0x01]) := by decide

theorem test_decode_inc : decoded [0b01100101, 0b00000110, 0x01] = some (.inc 6, [0x01]) := by decide

theorem test_decode_dec : decoded [0b01100110, 0b00000110, 0x01] = some (.dec 6, [0x01]) := by decide

theorem test_decode_not : decoded [0b01101001, 0b00000110, 0x01] = some (.not 6, [0x01]) := by decide

theorem test_decode_ldi :
    decoded [0b10000010, 0b00000101, 0b00000010, 0x01] = some (.ldi 5 2, [0x01]) := by decide

theorem test_decode_add :
    decoded [0b10100000, 0b00000101, 0b00000010, 0x01] = some (.add 5 2, [0x01]) := by decide

theorem test_decode_sub :
    decoded [0b10100001, 0b00000101, 0b00000010, 0x01] = some (.sub 5 2, [0x01]) := by decide

theorem test_decode_mul :
    decoded [0b10100010, 0b00000101, 0b00000010, 0x01] = some (.mul 5 2, [0x01]) := by decide

theorem test_decode_div :
    decoded [0b10100011, 0b00000101, 0b00000010, 0x01] = some (.div 5 2, [0x01]) := by decide

theorem test_decode_mod :
    decoded [0b10100100, 0b00000101, 0b00000010, 0x01] = some (.mod 5 2, [0x01]) := by decide

theorem test_decode_cmp :
    decoded [0b10100111, 0b00000101, 0b00000010, 0x01] = some (.cmp 5 2, [0x01]) := by decide

theorem test_decode_and :
    decoded [0b10101000, 0b00000101, 0b00000010, 0x01] = some (.and 5 2, [0x01]) := by decide

theorem test_decode_xor :
    decoded [0b10101011, 0b00000101, 0b00000010, 0x01] = some (.xor 5 2, [0x01]) := by decide

theorem test_decode_shl :
    decoded [0b10101100, 0b00000101, 0b00000010, 0x01] = some (.shl 5 2, [0x01]) := by decide

theorem test_decode_shr :
    decoded [0b10101101, 0b00000101, 0b00000010, 0x01] = some (.shr 5 2, [0x01]) := by decide

/-- The first byte of a word is its least significant byte, and bits above the row are 0. -/
theorem test_decode_table_word :
    decodeTableWord 24 0x0205A1 = some (.sub 5 2) ∧ decodeTableWord 8 0x45 = some (.push 0) := by decide

/-- Opcode bytes next to the 23 of R62 are refused, by R64 and R65. -/
theorem test_decode_refuses_unsupported :
    [0x00, 0x02, 0x44, 0x52, 0x57, 0x68, 0x81, 0xAA, 0xA5, 0xA6, 0xA9, 0xAE].all (fun op => decoded [op, 0, 0] = none) = true := by
  decide

/-- R66. -/
theorem test_decode_refuses_count_three :
    [0xC0, 0xC1, 0xE0, 0xFF].all (fun op => decoded [op, 0, 0, 0] = none) = true := by decide

/-- R58. -/
theorem test_decode_refuses_missing_operands :
    decoded [] = none ∧ decoded [0x45] = none ∧ decoded [0x82, 0] = none := by decide

theorem test_fetch_word_runs_first :
    (after (step (State.reset.withFetchWord 24 0x2A0382))).map (fun t => (t.reg .r3, t.pc.toNat)) =
    some (42, 3) := by decide

/-- Program P10: an unloaded cell is 0x00, which is not an instruction (R65). -/
theorem test_step_after_reset : stepRaises .unsupportedInstruction State.reset = true := by decide

/-! ## ALU instructions -/

/-- W2. -/
theorem test_add_wraps :
    stepReg .r0 (start 0 [0xA0, 0, 1] [(.r0, 250), (.r1, 10)]) = some (4, 3, .running) := by decide

/-- V41. -/
theorem test_add_leaves_flags :
    (after (step { start 0 [0xA0, 0, 1] [(.r0, 1), (.r1, 2)]
    with fl := .equal })).map (fun t => (t.reg .r0, t.fl)) = some (3, .equal) := by decide

/-- R75: 3 - 5 is -2, which is 254 modulo 256. -/
theorem test_sub_wraps :
    stepReg .r0 (start 0 [0xA1, 0, 1] [(.r0, 3), (.r1, 5)]) = some (254, 3, .running) := by decide

/-- R75: operand_a is the minuend and the destination. -/
theorem test_sub_operand_order :
    stepReg .r2 (start 0 [0xA1, 2, 1] [(.r1, 5), (.r2, 9)]) = some (4, 3, .running) := by decide

/-- R76: 200 * 3 = 600 = 2 * 256 + 88. -/
theorem test_mul_keeps_low_byte :
    stepReg .r0 (start 0 [0xA2, 0, 1] [(.r0, 200), (.r1, 3)]) = some (88, 3, .running) := by decide

/-- R76, R73: both operands are read before the write: 20 * 20 = 256 + 144. -/
theorem test_mul_same_register :
    stepReg .r4 (start 0 [0xA2, 4, 4] [(.r4, 20)]) = some (144, 3, .running) := by decide

/-- Program P6: 200 div 7 = 28. -/
theorem test_div_quotient :
    stepReg .r0 (start 0 [0xA3, 0, 1] [(.r0, 200), (.r1, 7)]) = some (28, 3, .running) := by decide

/-- W3. -/
theorem test_div_by_zero : stepRaises .divisionByZero (start 0 [0xA3, 0, 1] [(.r0, 7)]) = true := by decide

/-- Program P6: 200 mod 7 = 4. -/
theorem test_mod_remainder :
    stepReg .r2 (start 0 [0xA4, 2, 1] [(.r2, 200), (.r1, 7)]) = some (4, 3, .running) := by decide

/-- W3. -/
theorem test_mod_by_zero : stepRaises .divisionByZero (start 0 [0xA4, 0, 1] [(.r0, 7)]) = true := by decide

/-- R79: 255 + 1 is 0 modulo 256. -/
theorem test_inc_wraps : stepReg .r4 (start 0 [0x65, 4] [(.r4, 255)]) = some (0, 2, .running) := by decide

/-- R79: INC R7 moves SP with no stack check. -/
theorem test_inc_sp_unchecked : stepReg .r7 (start 0 [0x65, 7] [(.r7, 255)]) = some (0, 2, .running) := by decide

/-- V21. -/
theorem test_dec_wraps : stepReg .r4 (start 0 [0x66, 4] []) = some (255, 2, .running) := by decide

/-- R80: DEC R7 moves SP with no stack check. -/
theorem test_dec_sp_unchecked : stepReg .r7 (start 0 [0x66, 7] []) = some (242, 2, .running) := by decide

/-- V22. -/
theorem test_and :
    stepReg .r0 (start 0 [0xA8, 0, 1] [(.r0, 0xF0), (.r1, 0x3C)]) = some (0x30, 3, .running) := by decide

/-- V23. -/
theorem test_xor :
    stepReg .r0 (start 0 [0xAB, 0, 1] [(.r0, 0xFF), (.r1, 0x0F)]) = some (0xF0, 3, .running) := by decide

/-- V24. -/
theorem test_xor_same_register :
    stepReg .r0 (start 0 [0xAB, 0, 0] [(.r0, 0x5A)]) = some (0, 3, .running) := by decide

/-- V25. -/
theorem test_not : stepReg .r0 (start 0 [0x69, 0] [(.r0, 0x5A)]) = some (0xA5, 2, .running) := by decide

/-- V27. -/
theorem test_shl_loses_high_bit :
    stepReg .r0 (start 0 [0xAC, 0, 1] [(.r0, 0x81), (.r1, 1)]) = some (2, 3, .running) := by decide

/-- V30. -/
theorem test_shl_masks_amount :
    stepReg .r0 (start 0 [0xAC, 0, 1] [(.r0, 0x81), (.r1, 9)]) = some (2, 3, .running) := by decide

/-- V33. -/
theorem test_shr_logical :
    stepReg .r0 (start 0 [0xAD, 0, 1] [(.r0, 0xFF), (.r1, 4)]) = some (0x0F, 3, .running) := by decide

/-- V34. -/
theorem test_shr_masks_amount :
    stepReg .r0 (start 0 [0xAD, 0, 1] [(.r0, 0xF0), (.r1, 255)]) = some (1, 3, .running) := by decide

/-- V38. -/
theorem test_cmp_less_unsigned : stepFlags (start 0 [0xA7, 0, 1] [(.r1, 255)]) = some (0x04, 3) := by decide

/-- V36, V40. -/
theorem test_cmp_greater_and_equal :
    stepFlags (start 0 [0xA7, 0, 1] [(.r0, 5), (.r1, 3)]) = some (0x02, 3) ∧
    stepFlags { start 0 [0xA7, 0, 0] [(.r0, 42)] with fl := .greater } = some (0x01, 3) := by decide

/-! ## Control transfer -/

/-- V45, V46. -/
theorem test_jmp :
    stepPc (start 0x10 [0x54, 2] [(.r2, 0x40)]) = some 0x40 ∧ stepPc (start 0 [0x54, 7] []) = some 243 := by
  decide

/-- V49. -/
theorem test_jeq_taken : stepPc { start 8 [0x55, 3] [(.r3, 0x20)] with fl := .equal } = some 0x20 := by decide

/-- V50, V52. -/
theorem test_jeq_not_taken :
    stepPc { start 8 [0x55, 3] [(.r3, 0x20)] with fl := .less } = some 0x0A ∧ stepPc (start 254 [0x55, 0] []) =
    some 256 := by decide

/-- V54, V56. -/
theorem test_jne_taken :
    stepPc { start 0x10 [0x56, 2] [(.r2, 9)] with fl := .greater } = some 9 ∧
    stepPc (start 0x10 [0x56, 2] [(.r2, 9)]) = some 9 := by decide

/-- V55. -/
theorem test_jne_not_taken :
    stepPc { start 0x10 [0x56, 2] [(.r2, 9)] with fl := .equal } = some 0x12 := by decide

/-- V57. -/
theorem test_call : stepStack 242 (start 6 [0x50, 1] [(.r1, 0x0B)]) = some (242, 0x08, 0x0B) := by decide

/-- V58: the target is the old SP. -/
theorem test_call_r7 : stepStack 242 (start 0 [0x50, 7] []) = some (242, 0x02, 243) := by decide

/-- V62. -/
theorem test_ret :
    stepStack 242 { start 0 [0x11] [(.r7, 242)] with mem := [(0, 0x11), (242, 8)] } = some (243, 8, 8) := by
  decide

/-- V63. -/
theorem test_ret_empty_stack : stepStack 243 (start 0 [0x11] []) = some (244, 0, 0) := by decide

/-! ## Stack -/

/-- V65. -/
theorem test_push : stepStack 242 (start 0 [0x45, 0] [(.r0, 11)]) = some (242, 11, 2) := by decide

/-- V66, V67: the old SP goes to the new one, down to address 0. -/
theorem test_push_r7_to_zero : stepStack 0 (start 0 [0x45, 7] [(.r7, 1)]) = some (0, 1, 2) := by decide

/-- V72. -/
theorem test_pop :
    stepReg .r0 { start 0 [0x46, 0] [(.r7, 254)] with mem := [(0, 0x46), (254, 9)] } =
    some (9, 2, .running) := by decide

/-- V70: the popped value wins. -/
theorem test_pop_r7 :
    stepStack 241 { start 0 [0x46, 7] [(.r7, 241)] with mem := [(0, 0x46), (1, 7), (241, 0x50)] } =
    some (0x50, 0x50, 2) := by decide

/-! ## Data, output and system -/

/-- V80: the immediate is not checked. -/
theorem test_ldi : stepReg .r0 (start 0 [0x82, 0, 0xF3] []) = some (0xF3, 3, .running) := by decide

/-- V78. -/
theorem test_ldi_sp_unchecked : stepReg .r7 (start 0 [0x82, 7, 0] []) = some (0, 3, .running) := by decide

/-- V82. -/
theorem test_prn :
    (after (step (start 0 [0x47, 0] [(.r0, 8)]))).map (fun t => (t.out, t.pc.toNat)) = some ([8], 2) := by
  decide

/-- V83, R32: in execution order. -/
theorem test_prn_appends :
    (after (step { start 0 [0x47, 7] [] with out := [8] })).map (fun t => t.out) = some [8, 243] := by
  decide

/-- V86. -/
theorem test_hlt :
    after (step (start 255 [0x01] [])) = some { start 255 [0x01] [] with pc := 256, status := .halted } := by
  decide

/-! ## Errors and their order -/

/-- V88. -/
theorem test_error_opcode_fetch : stepRaises .addressingError (start 256 [] []) = true := by decide

/-- V89. -/
theorem test_error_count_three : stepRaises .unsupportedInstruction (start 0 [0xC0] []) = true := by decide

/-- V90. -/
theorem test_error_operand_fetch_first : stepRaises .addressingError (start 255 [0x40] []) = true := by decide

/-- V81. -/
theorem test_error_ldi_past_memory : stepRaises .addressingError (start 254 [0x82, 0] []) = true := by decide

/-- V93. -/
theorem test_error_register_before_zero :
    stepRaises .addressingError (start 0 [0xA3, 9, 0] []) = true := by decide

/-- V94. -/
theorem test_error_second_register : stepRaises .addressingError (start 0 [0xA3, 0, 9] []) = true := by decide

/-- V53. -/
theorem test_error_jeq_not_taken : stepRaises .addressingError (start 0 [0x55, 8] []) = true := by decide

/-- V59. -/
theorem test_error_call_at_254 : stepRaises .addressingError (start 254 [0x50, 1] [(.r1, 5)]) = true := by decide

/-- V60. -/
theorem test_error_call_sp_zero :
    stepRaises .addressingError (start 0 [0x50, 1] [(.r1, 5), (.r7, 0)]) = true := by decide

/-- V68. -/
theorem test_error_push_sp_zero :
    stepRaises .addressingError (start 0 [0x45, 0] [(.r0, 11), (.r7, 0)]) = true := by decide

/-- V73. -/
theorem test_error_pop_sp_255 : stepRaises .addressingError (start 0 [0x46, 0] [(.r7, 255)]) = true := by decide

/-- V64. -/
theorem test_error_ret_sp_255 : stepRaises .addressingError (start 0 [0x11] [(.r7, 255)]) = true := by decide

/-- V84. -/
theorem test_error_prn_emits_nothing : stepRaises .addressingError (start 0 [0x47, 9] []) = true := by decide

/-- V96. -/
theorem test_stopped_is_sticky :
    after (step { start 0 [0x65, 0] [] with status := .error .divisionByZero }) = some { start 0 [0x65, 0] []
    with status := .error .divisionByZero } := by decide

/-! ## Host operations -/

/-- V98. -/
theorem test_load_too_large :
    loadProgram (List.replicate 257 1) State.reset = (.programTooLarge, State.reset) :=
  if_pos (by rw [List.length_replicate]; decide)

/-- V100. -/
theorem test_load_leaves_bytes_above :
    (loadProgram [0x01] (start 0 [0x82, 0, 8] [])).2.mem = [(0, 0x01), (2, 8)] := by decide

/-- V101. -/
theorem test_reset :
    hostReset { start 30 [0x01] [(.r0, 9), (.r7, 10)]
    with fl := .greater, status := .error .addressingError } = { State.reset with mem := [(30, 0x01)] } := by
  decide

/-- R125: a used-up budget leaves the status Running. -/
theorem test_run_budget :
    (after (run 1 (start 0 [0x82, 0, 0, 0x54, 0] []))).map (fun t => (t.status, t.pc.toNat)) =
    some (.running, 3) := by decide

/-- V103. -/
theorem test_run_again :
    (after (run 9 { start 0 [0x01] []
    with pc := 1, status := .halted })).map (fun t => (t.status, t.pc.toNat)) = some (.halted, 1) := by
  decide

/-- V104, V105. -/
theorem test_write_then_read :
    ((writeRegister 3 200 State.reset).toOption.bind fun t => (readRegister 3 t).toOption) = some 200 ∧
    (readRegister 8 State.reset).toOption = none := by decide

/-- R104. -/
theorem test_codes :
    [StepResult.code .continue, StepResult.code .halted, StepResult.code (.error .unsupportedInstruction), StepResult.code (.error .divisionByZero), StepResult.code (.error .addressingError)] =
    [0, 1, 2, 3, 4] := by decide

/-! ## Witnesses: each meets all the hypotheses of the statement it names, a conjunct for each clause -/

theorem witness_DecodedBytesAreTheEncoding : decoded [0xA0, 0, 1, 0x47] = some (.add 0 1, [0x47]) := by decide

theorem witness_InstructionLengthIsOnePlusCount :
    decoded [0x45, 3, 0x47] = some (.push 3, [0x47]) ∧ (0xC0 : Byte).toNat / 64 = 3 := by decide

theorem witness_UnsupportedOpcodesRaiseUnsupportedInstruction :
    (start 255 [0xC0] []).pc.toNat ≤ 255 ∧ (start 255 [0xC0] []).mem.read 255 ∉ supportedOpcodes ∧
    ((start 255 [0xC0] []).mem.read 255).toNat / 64 = 3 ∧
    (start 254 [0x40] []).mem.read 254 ∉ supportedOpcodes ∧
    254 + ((start 254 [0x40] []).mem.read 254).toNat / 64 ≤ 255 ∧ (start 254 [0x40] []).status = .running := by
  decide

theorem witness_OpcodeBitsClassifyInstructions :
    opcode (.ldi 1 2) = opcode (.ldi 1 2) ∧ operands (.ldi 1 2) = operands (.ldi 1 2) := by decide

theorem witness_RegisterOperandBytesAreZeroToSeven :
    Reg.byte .r7 = Reg.byte .r7 ∧ Instr.not 7 ∈ [Instr.push 7, .not 7] ∧
    Instr.shr 7 8 ∈ [Instr.add 7 8, .shr 7 8] := by decide

theorem witness_StepExecutesTheDecodedInstruction :
    (start 253 [0xA0, 0, 1] []).status = .running ∧ decoded (fetchBytes (start 253 [0xA0, 0, 1] [])) =
    some (.add 0 1, []) := by decide

theorem witness_StepExecutesTheInstructionStoredAtPc :
    (start 253 [0xA0, 0, 1] []).status = .running ∧
    ∀ (k : Nat) (hk : k < (encode (.add 0 1)).length), (start 253 [0xA0, 0, 1] []).pc.toNat + k ≤ 255 ∧
    (start 253 [0xA0, 0, 1] []).mem.read ((start 253 [0xA0, 0, 1] []).pc.toNat + k) = (encode (.add 0 1))[k] := by
  decide

theorem witness_StepReportsTheFirstErrorOfTheCycle_opcodeFetch :
    255 < (start 256 [] []).pc.toNat ∧ (start 256 [] []).status = .running := by decide

theorem witness_StepReportsTheFirstErrorOfTheCycle_countThree :
    (start 255 [0xC0] []).pc.toNat ≤ 255 ∧ ((start 255 [0xC0] []).mem.read 255).toNat / 64 = 3 := by
  decide

theorem witness_StepReportsTheFirstErrorOfTheCycle_operandFetch :
    (start 254 [0x80] []).pc.toNat ≤ 255 ∧ ((start 254 [0x80] []).mem.read 254).toNat / 64 ≠ 3 ∧
    255 < 254 + ((start 254 [0x80] []).mem.read 254).toNat / 64 := by decide

theorem witness_StepReportsTheFirstErrorOfTheCycle_unsupported :
    253 + ((start 253 [0x80] []).mem.read 253).toNat / 64 ≤ 255 ∧
    ((start 253 [0x80] []).mem.read 253).toNat / 64 ≠ 3 ∧
    (start 253 [0x80] []).mem.read 253 ∉ supportedOpcodes := by decide

theorem witness_StepReportsTheFirstErrorOfTheCycle_supported :
    253 + ((start 253 [0x82] []).mem.read 253).toNat / 64 ≤ 255 ∧
    (start 253 [0x82] []).mem.read 253 ∈ supportedOpcodes := by decide

theorem witness_IllegalRegisterOperandRaisesAddressingError :
    (Instr.add 0 8).wf = false ∧ (Instr.jeq 8).wf = false ∧ (Instr.ldi 255 0).wf = false := by decide

theorem witness_ErrorStepChangesOnlyTheStatus :
    (start 0 [0xA3, 0, 1] []).status = .running ∧
    (after (step (start 0 [0xA3, 0, 1] []))).map (fun t => t.status) = some (.error .divisionByZero) := by
  decide

theorem witness_StoppedBlockStaysStopped :
    { State.reset with status := .halted }.status ≠ .running ∧ { State.reset
    with status := .error .addressingError }.status ≠ .running := by decide

theorem witness_OnlyHltHalts :
    (start 0 [0x01] []).status = .running ∧ (after (step (start 0 [0x01] []))).map (fun t => t.status) =
    some .halted ∧ decoded (fetchBytes (start 0 [0x65, 0, 1] [])) = some (.inc 0, [1]) ∧
    (after (step (start 0 [0x65, 0, 1] []))).isSome := by decide

theorem witness_OnlyCmpWritesFlags :
    (∀ a b, Instr.add 0 1 ≠ .cmp a b) ∧ (after (exec (.add 0 1) State.reset)).isSome :=
  ⟨fun _ _ h => (nomatch h), by decide⟩

/-- The second conjunct is the other half of the disjunction, as a JEQ or a JNE uses it, the third the CMP clause. -/
theorem witness_OnlyJeqAndJneReadFlagsAndOnlyE :
    (∀ a, Instr.cmp 0 7 ≠ .jeq a ∧ Instr.cmp 0 7 ≠ .jne a) ∧ Flags.E .less = State.reset.fl.E ∧
    Instr.cmp 0 7 = .cmp Reg.r0.byte Reg.r7.byte :=
  ⟨fun _ => ⟨fun h => (nomatch h), fun h => (nomatch h)⟩, by decide, rfl⟩

theorem witness_MemoryWrittenOnlyAtTheStoreAddress :
    (after (exec (.push 0) State.reset)).isSome ∧ storeAddress (.push 0) State.reset ≠ some 243 ∧
    (after (exec (.push 8) State.reset)).map (fun t => t.status) = some (.error .addressingError) := by
  decide

theorem witness_RegistersWrittenOnlyAsTabled :
    (after (exec (.pop 0) State.reset)).isSome ∧ Reg.r1 ∉ regsWritten (.pop 0) := by decide

theorem witness_RegistersNotReadDoNotMatter :
    Reg.r5 ∉ regsRead (.add 0 1) ∧ Reg.r0 ∉ regsRead (.pop 0) ∧ Reg.r0 ∈ regsWritten (.pop 0) ∧
    (after (exec (.pop 0) State.reset)).map (fun t => t.status) = some .running ∧
    Reg.r7 ∉ regsRead (.ldi 7 0) ∧ Reg.r7 ∈ regsWritten (.ldi 7 0) := by decide

theorem witness_SequentialInstructionsAdvancePcByTheirLength :
    opSetsPc (opcode (.div 0 1)) = false ∧
    (after (exec (.div 0 1) (start 0 [] [(.r1, 1)]))).map (fun t => t.status) = some .running ∧
    Status.running ≠ .error .addressingError := by decide

theorem witness_OnlyPrnEmits :
    (after (exec (.prn 0) State.reset)).isSome ∧ (after (exec (.inc 0) State.reset)).isSome := by decide

theorem witness_AddWritesSumModulo256 : 7 < (8 : Byte).toNat ∧ ¬ 7 < (7 : Byte).toNat := by decide

theorem witness_SubWritesDifferenceModulo256 : 7 < (8 : Byte).toNat ∧ ¬ 7 < (7 : Byte).toNat := by decide

theorem witness_MulWritesLowByteOfProduct : 7 < (8 : Byte).toNat ∧ ¬ 7 < (7 : Byte).toNat := by decide

theorem witness_IncAddsOneModulo256 : 7 < (8 : Byte).toNat ∧ ¬ 7 < (7 : Byte).toNat := by decide

theorem witness_DecSubtractsOneModulo256 : 7 < (8 : Byte).toNat ∧ ¬ 7 < (7 : Byte).toNat := by decide

theorem witness_AndWritesBitwiseAnd : 7 < (8 : Byte).toNat ∧ ¬ 7 < (7 : Byte).toNat := by decide

theorem witness_XorWritesBitwiseExclusiveOr : 7 < (8 : Byte).toNat ∧ ¬ 7 < (7 : Byte).toNat := by decide

theorem witness_NotWritesComplement : 7 < (8 : Byte).toNat ∧ ¬ 7 < (7 : Byte).toNat := by decide

theorem witness_ShlShiftsLeftByMaskedAmount : 7 < (8 : Byte).toNat ∧ ¬ 7 < (7 : Byte).toNat := by decide

theorem witness_ShrShiftsRightByMaskedAmount : 7 < (8 : Byte).toNat ∧ ¬ 7 < (7 : Byte).toNat := by decide

theorem witness_CmpSetsTheFlagOfItsComparison : 7 < (8 : Byte).toNat ∧ ¬ 7 < (7 : Byte).toNat := by decide

theorem witness_JmpGoesToTheRegisterValue : 7 < (8 : Byte).toNat ∧ ¬ 7 < (7 : Byte).toNat := by decide

theorem witness_PrnEmitsTheRegister : 7 < (8 : Byte).toNat ∧ ¬ 7 < (7 : Byte).toNat := by decide

theorem witness_DivWritesQuotientOrRaisesDivisionByZero :
    (start 0 [] [(.r1, 1)]).reg .r1 ≠ 0 ∧ State.reset.reg .r1 = 0 ∧ 7 < (8 : Byte).toNat := by decide

theorem witness_ModWritesRemainderOrRaisesDivisionByZero :
    (start 0 [] [(.r1, 1)]).reg .r1 ≠ 0 ∧ State.reset.reg .r1 = 0 ∧ 7 < (8 : Byte).toNat := by decide

theorem witness_JeqJumpsExactlyWhenEqual :
    { State.reset with fl := .equal }.fl.E = true ∧ State.reset.fl.E = false ∧ 7 < (8 : Byte).toNat := by
  decide

theorem witness_JneJumpsExactlyWhenNotEqual :
    { State.reset with fl := .equal }.fl.E = true ∧ State.reset.fl.E = false ∧ 7 < (8 : Byte).toNat := by
  decide

theorem witness_CallPushesReturnAddressAndJumps :
    (start 253 [] [(.r7, 1)]).pc.toNat + 2 ≤ 255 ∧ (start 253 [] [(.r7, 1)]).sp ≠ 0 ∧
    storeAddress (.call 0) (start 253 [] [(.r7, 1)]) = some 0 ∧ 255 < (start 254 [] []).pc.toNat + 2 ∧
    (start 0 [] [(.r7, 0)]).sp = 0 := by decide

theorem witness_RetPopsPcFromTheStack :
    (start 0 [] [(.r7, 254)]).sp ≠ 255 ∧ (start 0 [] [(.r7, 255)]).sp = 255 := by decide

theorem witness_PushStoresTheRegisterBelowSp :
    (start 0 [] [(.r7, 1)]).sp ≠ 0 ∧ storeAddress (.push 0) (start 0 [] [(.r7, 1)]) = some 0 ∧
    (start 0 [] [(.r7, 0)]).sp = 0 := by decide

theorem witness_PopLoadsTheByteAtSp :
    (start 0 [] [(.r7, 254)]).sp ≠ 255 ∧ Reg.r0 ≠ .r7 ∧ (start 0 [] [(.r7, 255)]).sp = 255 := by decide

theorem witness_LdiLoadsTheImmediate :
    7 < (8 : Byte).toNat ∧ (start 254 [0x82, 0] []).status = .running ∧
    (start 254 [0x82, 0] []).pc.toNat = 254 ∧ (start 254 [0x82, 0] []).mem.read 254 = 0x82 ∧
    (start 255 [0x82] []).pc.toNat = 255 ∧ (start 255 [0x82] []).mem.read 255 = 0x82 := by decide

/-- The state after the PUSH is itself a `u` of the statement. -/
theorem witness_PopAfterPushRestoresValueAndSp :
    (start 0 [] [(.r7, 1)]).sp ≠ 0 ∧
    (after (exec (.push 0) (start 0 [] [(.r7, 1)]))).map (fun t => (t.sp, t.mem.read 0)) = some (0, 0) := by
  decide

/-- The state after the CALL is itself a `u` of the statement. -/
theorem witness_RetAfterCallReturnsPastTheCall :
    (start 253 [] [(.r7, 1)]).pc.toNat + 2 ≤ 255 ∧ (start 253 [] [(.r7, 1)]).sp ≠ 0 ∧
    (after (exec (.call 0) (start 253 [] [(.r7, 1)]))).map (fun t => (t.sp, t.mem.read 0)) = some (0, 255) := by
  decide

theorem witness_StackIsLastInFirstOut :
    2 ≤ (start 0 [] [(.r7, 2)]).sp.toNat ∧ Reg.r0 ≠ .r7 ∧ Reg.r1 ≠ .r7 ∧ Reg.r0 ≠ .r1 := by decide

theorem witness_MemoryPrimitivesAreRangeChecked : 255 ≤ 255 ∧ 255 < 256 := by decide

theorem witness_CanonicalMemoriesThatReadAlikeAreEqual :
    Memory.wf [(3, 2), (5, 1)] ∧ Memory.wf ((Memory.write [] 5 1).write 3 2) ∧
    ∀ addr, addr ≤ 255 → Memory.read [(3, 2), (5, 1)] addr = ((Memory.write [] 5 1).write 3 2).read addr :=
  ⟨by decide, by decide, fun _ _ => rfl⟩

theorem witness_NextFetchSeesThePushedByte :
    (start 240 [0x45, 0] []).sp ≠ 0 ∧
    (start 240 [0x45, 0] []).sp.toNat - 1 = (start 240 [0x45, 0] []).pc.toNat + 2 := by decide

theorem witness_ResetStateSatisfiesInvariant : (start 0 [0x45, 0, 0, 1] []).mem.wf := by decide

theorem witness_EveryStepKeepsInvariant :
    (start 240 [0x45, 0] []).Inv ∧ (after (step (start 240 [0x45, 0] []))).isSome :=
  ⟨⟨by decide, by decide⟩, by decide⟩

theorem witness_HostOperationsKeepInvariantSoReachableStatesSatisfyIt :
    (start 240 [0x45, 0] []).Inv ∧ (after (run 1 (start 240 [0x45, 0] []))).isSome ∧
    (writeRegister 7 0 (start 240 [0x45, 0] [])).toOption.isSome ∧
    Reachable (hostReset (loadProgram [0x01] State.reset).2) :=
  ⟨⟨by decide, by decide⟩, by decide, by decide, .reset (.load _ .construction)⟩

theorem witness_OversizedLoadChangesNothing :
    256 < (List.replicate 257 (1 : Byte)).length ∧ (List.replicate 256 (1 : Byte)).length ≤ 256 :=
  by simp only [List.length_replicate]; decide

theorem witness_LoadPlacesBytesFromAddressZero :
    (List.replicate 256 (1 : Byte)).length ≤ 256 ∧ 255 < (List.replicate 256 (1 : Byte)).length ∧
    ([] : List Byte).length ≤ 0 :=
  by simp only [List.length_replicate, List.length_nil]; decide

theorem witness_RunWithoutBudgetHasOneEnd :
    ∃ t, RunEnds (start 0 [0x01] []) t ∧ run 1 (start 0 [0x01] []) = .next t ∧ t.status ≠ .running :=
  ⟨{ start 0 [0x01] [] with pc := 1, status := .halted }, ⟨1, rfl, by decide⟩, rfl, by decide⟩

theorem witness_HostRegisterPortsAreIndexChecked : 7 ≤ 7 ∧ 7 < 8 ∧ 6 ≠ 7 := by decide

end Sys2Proof.Tests
end

/-! PROOFS. O20: a register an instruction does not read does not influence it. An instruction is run in `s` and in
`s.setReg r v`; the two runs go side by side through the sequencing of its meaning (`Except`), and end in states that
differ in `r` at most. -/

namespace Sys2Proof.Machine

section Noninterference

variable {r : Reg} {v : Byte} {s : State}

/-! ## Writing a register commutes with the operations that touch no register -/

@[simp] theorem setReg_reg_self (t : State) (r : Reg) : t.setReg r (t.reg r) = t := by cases r <;> rfl

theorem branch_setReg (taken : Bool) (target : Byte) (t : State) (r : Reg) (v : Byte) :
    branch taken target (t.setReg r v) = (branch taken target t).setReg r v := by
  cases taken <;> rfl

theorem pushed_setReg (w : Byte) (t : State) {r : Reg} (v : Byte) (h : .r7 ≠ r) :
    pushed w (t.setReg r v) = (pushed w t).setReg r v := by
  rw [pushed, reg_setReg_of_ne t v h, setReg_comm t v _ h.symm]
  rfl

@[simp] theorem regsOfByte_byte (r : Reg) : regsOfByte r.byte = [r] := by simp [regsOfByte]

/-! ## States, computations and results that agree but for one register -/

/-- `t` and `u` are the same state but for register `r`. -/
def SameButReg (r : Reg) (t u : State) : Prop := u.setReg r (t.reg r) = t

theorem SameButReg.refl (r : Reg) (t : State) : SameButReg r t t := setReg_reg_self t r

theorem SameButReg.setReg (r : Reg) (v : Byte) (t : State) : SameButReg r t (t.setReg r v) := by
  simp [SameButReg]

/-- Two instruction bodies raise the same error, or succeed in states that differ in `r` at most. -/
inductive AgreeBut (r : Reg) : Except ErrorKind State → Except ErrorKind State → Prop
  | ok {t u : State} : SameButReg r t u → AgreeBut r (.ok t) (.ok u)
  | error (k : ErrorKind) : AgreeBut r (.error k) (.error k)

/-- Two runs end in next states that differ in `r` at most. -/
def NextSameBut (r : Reg) (x y : Result) : Prop := ∃ t u, x = .next t ∧ y = .next u ∧ SameButReg r t u

/-- Ending an instruction: an error is taken in the starting states, which differ in `r` only. -/
theorem AgreeBut.commit {x y : Except ErrorKind State} (h : AgreeBut r x y) :
    NextSameBut r (commit s x) (commit (s.setReg r v) y) := by
  cases h with
  | ok htu => exact ⟨_, _, rfl, rfl, htu⟩
  | error k => exact ⟨_, _, rfl, rfl, .setReg r v (takeError k s)⟩

/-- Bodies that begin with the same computation agree if what follows it does. -/
theorem AgreeBut.bind {α : Type} (x : Except ErrorKind α) {f g : α → Except ErrorKind State}
    (h : ∀ a, x = .ok a → AgreeBut r (f a) (g a)) : AgreeBut r (x >>= f) (x >>= g) := by
  cases x with
  | ok a => exact h a rfl
  | error k => exact .error k

/-- A register operand that is not `r`. -/
theorem AgreeBut.regOperand {a : Byte} {f g : Reg → Except ErrorKind State} (ha : r ∉ regsOfByte a)
    (h : ∀ ra, ra ≠ r → AgreeBut r (f ra) (g ra)) :
    AgreeBut r (regOperand a >>= f) (regOperand a >>= g) := by
  refine .bind _ fun ra hra => h ra ?_
  rw [regOperand_eq_ok hra, regsOfByte_byte, List.mem_singleton] at ha
  exact Ne.symm ha

/-- Two register operands, neither of them `r`. -/
theorem AgreeBut.regOperands {a b : Byte} {f g : Reg × Reg → Except ErrorKind State}
    (hab : r ∉ regsOfByte a ++ regsOfByte b)
    (h : ∀ ra rb, ra ≠ r → rb ≠ r → AgreeBut r (f (ra, rb)) (g (ra, rb))) :
    AgreeBut r (regOperands a b >>= f) (regOperands a b >>= g) := by
  refine .bind _ fun ⟨ra, rb⟩ hp => ?_
  obtain ⟨rfl, rfl⟩ := regOperands_eq_ok hp
  simp only [regsOfByte_byte, List.mem_append, List.mem_singleton, not_or] at hab
  exact h ra rb (Ne.symm hab.1) (Ne.symm hab.2)

/-- A push, if `r` is not SP. -/
theorem AgreeBut.push {w : Byte} {f g : State → Except ErrorKind State} (h7 : .r7 ≠ r)
    (h : ∀ t, AgreeBut r (f t) (g (t.setReg r v))) :
    AgreeBut r (push w s >>= f) (push w (s.setReg r v) >>= g) := by
  have hsp : (s.setReg r v).reg .r7 = s.reg .r7 := reg_setReg_of_ne s v h7
  by_cases h0 : s.reg .r7 = 0
  · rw [push_underflow h0, push_underflow (hsp.trans h0)]
    exact .error _
  · rw [push_ok h0, push_ok (by rwa [hsp]), pushed_setReg w s v h7]
    exact h _

/-- A pop, if `r` is not SP: it takes the same byte. -/
theorem AgreeBut.pop {f g : Byte × State → Except ErrorKind State} (h7 : .r7 ≠ r)
    (h : ∀ w t, AgreeBut r (f (w, t)) (g (w, t.setReg r v))) :
    AgreeBut r (pop s >>= f) (pop (s.setReg r v) >>= g) := by
  have hsp : (s.setReg r v).reg .r7 = s.reg .r7 := reg_setReg_of_ne s v h7
  by_cases h0 : s.reg .r7 = 255
  · rw [pop_overflow h0, pop_overflow (hsp.trans h0)]
    exact .error _
  · rw [pop_ok h0, pop_ok (by rwa [hsp]), hsp, setReg_comm s v _ h7.symm]
    exact h _ _

/-- The end of a body whose last write to a register is to `ra`, whether or not that is `r`. -/
theorem AgreeBut.advance_setReg (n : Nat) (ra : Reg) (w : Byte) (t : State) :
    AgreeBut r (.ok (advance n (t.setReg ra w))) (.ok (advance n ((t.setReg r v).setReg ra w))) := by
  by_cases h : r = ra
  · subst h
    rw [setReg_setReg_same]
    exact .ok (.refl r _)
  · rw [setReg_comm t v w h]
    exact .ok (.setReg r v (advance n (t.setReg ra w)))

/-! ## Each meaning, in a register it does not read -/

theorem binaryAlu_sameBut (op : Byte → Byte → Except ErrorKind Byte) {a b : Byte}
    (h : r ∉ regsOfByte a ++ regsOfByte b) :
    NextSameBut r (binaryAlu op a b s) (binaryAlu op a b (s.setReg r v)) := by
  refine AgreeBut.commit (.regOperands h fun ra rb ha hb => ?_)
  simp only [reg_setReg_of_ne s v ha, reg_setReg_of_ne s v hb]
  exact .bind _ fun w _ => .advance_setReg 3 ra w s

theorem unaryAlu_sameBut (op : Byte → Byte) {a : Byte} (h : r ∉ regsOfByte a) :
    NextSameBut r (unaryAlu op a s) (unaryAlu op a (s.setReg r v)) := by
  refine AgreeBut.commit (.regOperand h fun ra ha => ?_)
  rw [reg_setReg_of_ne s v ha]
  exact .advance_setReg 2 ra _ s

theorem execCmp_sameBut {a b : Byte} (h : r ∉ regsOfByte a ++ regsOfByte b) :
    NextSameBut r (execCmp a b s) (execCmp a b (s.setReg r v)) := by
  refine AgreeBut.commit (.regOperands h fun ra rb ha hb => ?_)
  simp only [reg_setReg_of_ne s v ha, reg_setReg_of_ne s v hb]
  exact .ok (.setReg r v (advance 3 (setFlags _ s)))

theorem execJmp_sameBut {a : Byte} (h : r ∉ regsOfByte a) :
    NextSameBut r (execJmp a s) (execJmp a (s.setReg r v)) := by
  refine AgreeBut.commit (.regOperand h fun ra ha => ?_)
  rw [reg_setReg_of_ne s v ha]
  exact .ok (.setReg r v (jump _ s))

theorem execJeq_sameBut {a : Byte} (h : r ∉ regsOfByte a) :
    NextSameBut r (execJeq a s) (execJeq a (s.setReg r v)) := by
  refine AgreeBut.commit (.regOperand h fun ra ha => ?_)
  rw [reg_setReg_of_ne s v ha, branch_setReg]
  exact .ok (.setReg r v _)

theorem execJne_sameBut {a : Byte} (h : r ∉ regsOfByte a) :
    NextSameBut r (execJne a s) (execJne a (s.setReg r v)) := by
  refine AgreeBut.commit (.regOperand h fun ra ha => ?_)
  rw [reg_setReg_of_ne s v ha, branch_setReg]
  exact .ok (.setReg r v _)

theorem execPrn_sameBut {a : Byte} (h : r ∉ regsOfByte a) :
    NextSameBut r (execPrn a s) (execPrn a (s.setReg r v)) := by
  refine AgreeBut.commit (.regOperand h fun ra ha => ?_)
  rw [reg_setReg_of_ne s v ha]
  exact .ok (.setReg r v (advance 2 (emit _ s)))

theorem execPush_sameBut {a : Byte} (h7 : .r7 ≠ r) (h : r ∉ regsOfByte a) :
    NextSameBut r (execPush a s) (execPush a (s.setReg r v)) := by
  refine AgreeBut.commit (.regOperand h fun ra ha => ?_)
  rw [reg_setReg_of_ne s v ha]
  exact .push h7 fun t => .ok (.setReg r v (advance 2 t))

theorem execCall_sameBut {a : Byte} (h7 : .r7 ≠ r) (h : r ∉ regsOfByte a) :
    NextSameBut r (execCall a s) (execCall a (s.setReg r v)) := by
  refine AgreeBut.commit (.regOperand h fun ra ha => .bind (returnAddress s) fun w _ => ?_)
  rw [reg_setReg_of_ne s v ha]
  exact .push h7 fun t => .ok (.setReg r v (jump _ t))

theorem execRet_sameBut (h7 : .r7 ≠ r) : NextSameBut r (execRet s) (execRet (s.setReg r v)) :=
  AgreeBut.commit (.pop h7 fun w t => .ok (.setReg r v (jump w t)))

/-- POP does not read the register it pops into. -/
theorem execPop_sameBut {a : Byte} (h7 : .r7 ≠ r) : NextSameBut r (execPop a s) (execPop a (s.setReg r v)) :=
  AgreeBut.commit (.bind _ fun ra _ => .pop h7 fun w t => .advance_setReg 2 ra w t)

/-- LDI reads no register. -/
theorem execLdi_sameBut {a imm : Byte} : NextSameBut r (execLdi a imm s) (execLdi a imm (s.setReg r v)) :=
  AgreeBut.commit (.bind _ fun ra _ => .advance_setReg 3 ra imm s)

theorem execHlt_sameBut : NextSameBut r (execHlt s) (execHlt (s.setReg r v)) :=
  AgreeBut.commit (.ok (.setReg r v (halt (advance 1 s))))

/-- An instruction's next states from two states that differ in a register it does not read differ in that register
at most. -/
theorem exec_sameBut_of_not_read {i : Instr} (h : r ∉ regsRead i) :
    NextSameBut r (exec i s) (exec i (s.setReg r v)) := by
  cases i with
  | hlt => exact execHlt_sameBut
  | ret => exact execRet_sameBut (List.ne_of_not_mem_cons h).symm
  | push a => exact execPush_sameBut (List.ne_of_not_mem_cons h).symm (List.not_mem_of_not_mem_cons h)
  | pop a => exact execPop_sameBut (List.ne_of_not_mem_cons h).symm
  | prn a => exact execPrn_sameBut h
  | call a => exact execCall_sameBut (List.ne_of_not_mem_cons h).symm (List.not_mem_of_not_mem_cons h)
  | jmp a => exact execJmp_sameBut h
  | jeq a => exact execJeq_sameBut h
  | jne a => exact execJne_sameBut h
  | inc a | dec a | not a => exact unaryAlu_sameBut _ h
  | ldi a imm => exact execLdi_sameBut
  | cmp a b => exact execCmp_sameBut h
  | div a b => exact binaryAlu_sameBut aluDiv h
  | mod a b => exact binaryAlu_sameBut aluMod h
  | add a b => exact binaryAlu_sameBut (fun A B => .ok (aluAdd A B)) h
  | sub a b => exact binaryAlu_sameBut (fun A B => .ok (aluSub A B)) h
  | mul a b => exact binaryAlu_sameBut (fun A B => .ok (aluMul A B)) h
  | and a b => exact binaryAlu_sameBut (fun A B => .ok (aluAnd A B)) h
  | xor a b => exact binaryAlu_sameBut (fun A B => .ok (aluXor A B)) h
  | shl a b => exact binaryAlu_sameBut (fun A B => .ok (aluShl A B)) h
  | shr a b => exact binaryAlu_sameBut (fun A B => .ok (aluShr A B)) h

/-! ## A register written and not read -/

theorem mem_regsOfByte {b : Byte} : r ∈ regsOfByte b ↔ b = r.byte := by
  constructor
  · intro h
    exact Reg.ofNat?_eq_some (Option.mem_toList.mp h)
  · rintro rfl
    simp

/-- Only LDI and POP write a register they do not read (R25). -/
theorem ldi_or_pop_of_written_not_read {i : Instr} (hr : r ∉ regsRead i) (hw : r ∈ regsWritten i) :
    (∃ imm, i = .ldi r.byte imm) ∨ i = .pop r.byte ∧ .r7 ≠ r := by
  cases i with
  | hlt | prn a | jmp a | jeq a | jne a | cmp a b => cases hw
  | ret => exact absurd hw hr
  | push a | call a => exact absurd (List.mem_singleton.mp hw ▸ .head _) hr
  | inc a | dec a | not a => exact absurd hw hr
  | add a b | sub a b | mul a b | div a b | mod a b | and a b | xor a b | shl a b | shr a b =>
    exact absurd (List.mem_append_left _ hw) hr
  | ldi a imm => exact .inl ⟨imm, by rw [mem_regsOfByte.mp hw]⟩
  | pop a =>
    have h7 : r ≠ .r7 := List.ne_of_not_mem_cons hr
    exact .inr ⟨by rw [mem_regsOfByte.mp (List.mem_of_ne_of_mem h7 hw)], h7.symm⟩

theorem execLdi_setReg_target (imm : Byte) : execLdi r.byte imm (s.setReg r v) = execLdi r.byte imm s := by
  rw [execLdi_byte, execLdi_byte, setReg_setReg_same]

theorem execPop_setReg_target (h7 : .r7 ≠ r) (hsp : s.reg .r7 ≠ 255) :
    execPop r.byte (s.setReg r v) = execPop r.byte s := by
  have hsp' : (s.setReg r v).reg .r7 = s.reg .r7 := reg_setReg_of_ne s v h7
  rw [execPop_byte r hsp, execPop_byte r (by rwa [hsp']), hsp', setReg_comm s v _ h7.symm, setReg_setReg_same,
    mem_setReg]

/-- The old value of a register that is written and not read is lost, unless the instruction raises an error. -/
theorem exec_setReg_of_written_not_read {i : Instr} {t : State} (hr : r ∉ regsRead i) (hw : r ∈ regsWritten i)
    (h : exec i s = .next t) (hk : ∀ k, t.status ≠ .error k) : exec i (s.setReg r v) = exec i s := by
  rcases ldi_or_pop_of_written_not_read hr hw with ⟨imm, rfl⟩ | ⟨rfl, h7⟩
  · exact execLdi_setReg_target imm
  · refine execPop_setReg_target h7 fun hsp => ?_
    obtain rfl : takeError .addressingError s = t := Host.Outcome.next.inj ((execPop_overflow r hsp).symm.trans h)
    exact hk _ (status_takeError s _)

end Noninterference

/-- Settles O20: the two runs agree but for `r`, and where `r` is written and not read they are one run. -/
theorem registersNotReadDoNotMatter : Obligations.RegistersNotReadDoNotMatter := by
  intro i s r v hr
  obtain ⟨t, u, ht, hu, htu⟩ := exec_sameBut_of_not_read (s := s) (v := v) hr
  refine ⟨t, u, ht, hu, htu, fun hw hk => ?_⟩
  have hone : exec i (s.setReg r v) = exec i s := exec_setReg_of_written_not_read hr hw ht hk
  exact Host.Outcome.next.inj (hu.symm.trans (hone.trans ht))

end Sys2Proof.Machine

/-! PROOFS. O17: FL influences only JEQ and JNE, and those through E. An instruction is run in `s` and in
`setFlags f s`; the two runs take the same path through the meaning's sequencing and end in states that differ in FL
at most. -/

namespace Sys2Proof.Machine

section FlagNoninterference

variable {s : State} {f : Flags}

/-! ## Writing FL commutes with a branch -/

theorem branch_setFlags (taken : Bool) (target : Byte) :
    branch taken target (setFlags f s) = setFlags f (branch taken target s) := by
  cases taken <;> rfl

/-! ## Results that agree but for FL -/

/-- Two runs end in next states that differ in FL at most. -/
def NextSameButFl (x y : Result) : Prop := ∃ t u, x = .next t ∧ y = .next u ∧ setFlags t.fl u = t

theorem NextSameButFl.commit_ok {t u : State} (h : setFlags t.fl u = t) :
    NextSameButFl (commit s (.ok t)) (commit (setFlags f s) (.ok u)) :=
  ⟨t, u, rfl, rfl, h⟩

/-- An error is taken in the starting states, which differ in FL only. -/
theorem NextSameButFl.commit_error (k : ErrorKind) :
    NextSameButFl (commit s (.error k)) (commit (setFlags f s) (.error k)) :=
  ⟨takeError k s, takeError k (setFlags f s), rfl, rfl, rfl⟩

/-- Meanings that begin with the same computation agree if what follows it does. -/
theorem NextSameButFl.commit_bind {α : Type} (x : Except ErrorKind α) {g g' : α → Except ErrorKind State}
    (h : ∀ a, NextSameButFl (commit s (g a)) (commit (setFlags f s) (g' a))) :
    NextSameButFl (commit s (x >>= g)) (commit (setFlags f s) (x >>= g')) := by
  cases x with
  | ok a => exact h a
  | error k => exact .commit_error k

/-- A push does not look at FL. -/
theorem NextSameButFl.commit_push {v : Byte} {g g' : State → Except ErrorKind State}
    (h : NextSameButFl (commit s (g (pushed v s))) (commit (setFlags f s) (g' (setFlags f (pushed v s))))) :
    NextSameButFl (commit s (push v s >>= g)) (commit (setFlags f s) (push v (setFlags f s) >>= g')) := by
  have hsp : (setFlags f s).reg .r7 = s.reg .r7 := reg_setFlags s f .r7
  by_cases h0 : s.reg .r7 = 0
  · rw [push_underflow h0, push_underflow (hsp.trans h0)]
    exact .commit_error _
  · rw [push_ok h0, push_ok (by rwa [hsp])]
    exact h

/-- A pop does not look at FL. -/
theorem NextSameButFl.commit_pop {g g' : Byte × State → Except ErrorKind State}
    (h : ∀ w t, NextSameButFl (commit s (g (w, t))) (commit (setFlags f s) (g' (w, setFlags f t)))) :
    NextSameButFl (commit s (pop s >>= g)) (commit (setFlags f s) (pop (setFlags f s) >>= g')) := by
  have hsp : (setFlags f s).reg .r7 = s.reg .r7 := reg_setFlags s f .r7
  by_cases h0 : s.reg .r7 = 255
  · rw [pop_overflow h0, pop_overflow (hsp.trans h0)]
    exact .commit_error _
  · rw [pop_ok h0, pop_ok (by rwa [hsp])]
    exact h _ _

/-! ## The meanings -/

theorem binaryAlu_sameButFl (op : Byte → Byte → Except ErrorKind Byte) (a b : Byte) :
    NextSameButFl (binaryAlu op a b s) (binaryAlu op a b (setFlags f s)) :=
  .commit_bind _ fun (ra, rb) => .commit_bind (op (s.reg ra) (s.reg rb)) fun _ => .commit_ok rfl

theorem unaryAlu_sameButFl (op : Byte → Byte) (a : Byte) :
    NextSameButFl (unaryAlu op a s) (unaryAlu op a (setFlags f s)) :=
  .commit_bind _ fun _ => .commit_ok rfl

/-- What JEQ and JNE do with the same condition: the branch leaves FL alone. -/
theorem branch_sameButFl (taken : Bool) (a : Byte) :
    NextSameButFl (commit s (regOperand a >>= fun ra => .ok (branch taken (s.reg ra) s)))
      (commit (setFlags f s) (regOperand a >>= fun ra => .ok (branch taken (s.reg ra) (setFlags f s)))) := by
  refine .commit_bind _ fun ra => .commit_ok ?_
  rw [branch_setFlags]
  rfl

theorem execJeq_sameButFl (a : Byte) (hE : f.E = s.fl.E) :
    NextSameButFl (execJeq a s) (execJeq a (setFlags f s)) := by
  unfold execJeq
  rw [fl_setFlags, hE]
  exact branch_sameButFl s.fl.E a

theorem execJne_sameButFl (a : Byte) (hE : f.E = s.fl.E) :
    NextSameButFl (execJne a s) (execJne a (setFlags f s)) := by
  unfold execJne
  rw [fl_setFlags, hE]
  exact branch_sameButFl (!s.fl.E) a

theorem execCall_sameButFl (a : Byte) : NextSameButFl (execCall a s) (execCall a (setFlags f s)) :=
  .commit_bind _ fun _ => .commit_bind (returnAddress s) fun _ => .commit_push (.commit_ok rfl)

theorem execPush_sameButFl (a : Byte) : NextSameButFl (execPush a s) (execPush a (setFlags f s)) :=
  .commit_bind _ fun _ => .commit_push (.commit_ok rfl)

theorem execPop_sameButFl (a : Byte) : NextSameButFl (execPop a s) (execPop a (setFlags f s)) :=
  .commit_bind _ fun _ => .commit_pop fun _ _ => .commit_ok rfl

theorem execRet_sameButFl : NextSameButFl (execRet s) (execRet (setFlags f s)) :=
  .commit_pop fun _ _ => .commit_ok rfl

theorem execHlt_sameButFl : NextSameButFl (execHlt s) (execHlt (setFlags f s)) :=
  .commit_ok rfl

/-- No instruction reads FL but JEQ and JNE, and they read only E (R30). -/
theorem exec_sameButFl {i : Instr} (h : (∀ a, i ≠ .jeq a ∧ i ≠ .jne a) ∨ f.E = s.fl.E) :
    NextSameButFl (exec i s) (exec i (setFlags f s)) := by
  cases i with
  | jeq a => exact execJeq_sameButFl a (h.resolve_left fun hne => (hne a).1 rfl)
  | jne a => exact execJne_sameButFl a (h.resolve_left fun hne => (hne a).2 rfl)
  | hlt => exact execHlt_sameButFl
  | ret => exact execRet_sameButFl
  | push a => exact execPush_sameButFl a
  | pop a => exact execPop_sameButFl a
  | call a => exact execCall_sameButFl a
  | prn a | jmp a | ldi a imm | cmp a b => exact .commit_bind _ fun _ => .commit_ok rfl
  | inc a | dec a | not a => exact unaryAlu_sameButFl _ a
  | div a b | mod a b => exact binaryAlu_sameButFl _ a b
  | add a b => exact binaryAlu_sameButFl (fun A B => .ok (aluAdd A B)) a b
  | sub a b => exact binaryAlu_sameButFl (fun A B => .ok (aluSub A B)) a b
  | mul a b => exact binaryAlu_sameButFl (fun A B => .ok (aluMul A B)) a b
  | and a b => exact binaryAlu_sameButFl (fun A B => .ok (aluAnd A B)) a b
  | xor a b => exact binaryAlu_sameButFl (fun A B => .ok (aluXor A B)) a b
  | shl a b => exact binaryAlu_sameButFl (fun A B => .ok (aluShl A B)) a b
  | shr a b => exact binaryAlu_sameButFl (fun A B => .ok (aluShr A B)) a b

/-- A CMP of two registers overwrites all of FL, so the old FL leaves no trace. -/
theorem execCmp_byte_setFlags (ra rb : Reg) :
    execCmp ra.byte rb.byte (setFlags f s) = execCmp ra.byte rb.byte s := by
  rw [execCmp_byte, execCmp_byte]
  rfl

end FlagNoninterference

/-- Settles O17: the two runs agree but for FL, and a CMP of two registers makes one run of them. -/
theorem onlyJeqAndJneReadFlagsAndOnlyE : Obligations.OnlyJeqAndJneReadFlagsAndOnlyE := by
  intro i s f h
  obtain ⟨t, u, ht, hu, htu⟩ := exec_sameButFl h
  refine ⟨t, u, ht, hu, htu, ?_⟩
  rintro a b rfl
  have hone : exec (.cmp a.byte b.byte) (setFlags f s) = exec (.cmp a.byte b.byte) s := execCmp_byte_setFlags a b
  exact Host.Outcome.next.inj (hu.symm.trans (hone.trans ht))

end Sys2Proof.Machine

/-! PROOFS. O49: the memory primitives in and out of 0..255 (R41). -/

namespace Sys2Proof.Machine

/-- A write in range succeeds; the byte reads back, and nothing else the machine holds has moved. -/
theorem memWrite_inRange {addr : Nat} (h : addr < 256) (v : Byte) (s : State) :
    ∃ t, memWrite addr v s = .ok t ∧ memRead addr t = .ok v ∧ MemSameBut addr s t ∧
      RegsSameBut [] s t ∧ t.pc = s.pc ∧ t.fl = s.fl ∧ t.status = s.status := by
  refine ⟨{ s with mem := s.mem.write addr v }, memWrite_ok h v s, ?readBack, ?otherBytes, ?regs, rfl, rfl, rfl⟩
  case readBack => rw [memRead_ok h, Memory.read_write_same]
  case otherBytes => exact fun _ hx => Memory.read_write_of_ne s.mem v hx
  case regs => exact fun _ _ => rfl

/-- An instruction whose write is out of range ends in the addressing error, taken in the state it began in. -/
theorem commit_memWrite_illegal {addr : Nat} (h : 255 < addr) (v : Byte) (s : State) :
    commit s (memWrite addr v s) = .next (takeError .addressingError s) := by
  rw [memWrite_illegal h, commit_error]

/-- Settles O49: in range the read-after-write laws, out of range the error taken with memory as it was. -/
theorem memoryPrimitivesAreRangeChecked : Obligations.MemoryPrimitivesAreRangeChecked := by
  intro addr v s
  constructor
  · intro h
    have hlt : addr < 256 := Nat.lt_succ_of_le h
    exact ⟨memRead_ok hlt s, memWrite_inRange hlt v s⟩
  · intro h
    exact ⟨memRead_illegal h s, memWrite_illegal h v s, takeError .addressingError s, commit_memWrite_illegal h v s,
      status_takeError s _, fun _ => rfl⟩

end Sys2Proof.Machine

/-! PROOFS. O3: an instruction's length is one more than its opcode's count field (R57), and a count field of 3 has no
length (R66). -/

namespace Sys2Proof

/-- The law of `Laws.OpcodeCount` for every instruction: one operand byte for each that the count field announces. -/
theorem opCount_opcode (i : Instr) : Laws.OpcodeCount.Statement i := by
  cases i with
  | hlt => exact Laws.OpcodeCount.hlt
  | ret => exact Laws.OpcodeCount.ret
  | push a => exact Laws.OpcodeCount.push a
  | pop a => exact Laws.OpcodeCount.pop a
  | prn a => exact Laws.OpcodeCount.prn a
  | call a => exact Laws.OpcodeCount.call a
  | jmp a => exact Laws.OpcodeCount.jmp a
  | jeq a => exact Laws.OpcodeCount.jeq a
  | jne a => exact Laws.OpcodeCount.jne a
  | inc a => exact Laws.OpcodeCount.inc a
  | dec a => exact Laws.OpcodeCount.dec a
  | not a => exact Laws.OpcodeCount.not a
  | ldi a imm => exact Laws.OpcodeCount.ldi a imm
  | add a b => exact Laws.OpcodeCount.add a b
  | sub a b => exact Laws.OpcodeCount.sub a b
  | mul a b => exact Laws.OpcodeCount.mul a b
  | div a b => exact Laws.OpcodeCount.div a b
  | mod a b => exact Laws.OpcodeCount.mod a b
  | cmp a b => exact Laws.OpcodeCount.cmp a b
  | and a b => exact Laws.OpcodeCount.and a b
  | xor a b => exact Laws.OpcodeCount.xor a b
  | shl a b => exact Laws.OpcodeCount.shl a b
  | shr a b => exact Laws.OpcodeCount.shr a b

theorem encode_length_eq_opLength (i : Instr) : (encode i).length = opLength (opcode i) := by
  rw [encode_length, opLength, (opCount_opcode i).1]

theorem opCount_opcode_ne_three (i : Instr) : opCount (opcode i) ≠ 3 := by
  obtain ⟨hcount, hle⟩ := opCount_opcode i
  omega

/-- Decoding takes off the front as many bytes as the opcode alone announces. -/
theorem decode_consumes_opLength {op : Byte} {tail rest : List Byte} {i : Instr}
    (h : decode (op :: tail) = .ok (i, rest)) : (op :: tail).length = opLength op + rest.length := by
  obtain ⟨op', tail', hbytes, -, hle, hrest, -⟩ := decode_eq_ok h
  obtain ⟨rfl, rfl⟩ := List.cons.inj hbytes
  rw [hrest, List.length_drop, List.length_cons, opLength]
  omega

/-- Settles O3: the three clauses say of `op.toNat / 64` what the lemmas above and `decode_count_three` say of the
count field. -/
theorem instructionLengthIsOnePlusCount : Obligations.InstructionLengthIsOnePlusCount := by
  unfold Obligations.InstructionLengthIsOnePlusCount
  simp only [← opCount_toNat]
  exact ⟨fun i => ⟨encode_length_eq_opLength i, opCount_opcode_ne_three i⟩,
    fun _ _ _ _ h => decode_consumes_opLength h, fun _ tail h => decode_count_three h tail⟩

end Sys2Proof

/-! PROOFS. O4: a fetched opcode outside the opcode map raises UnsupportedInstruction (R64). -/

namespace Sys2Proof.Machine

/-! ## The opcode map and the 23 opcodes -/

/-- The opcode map answers only with instructions of the opcode it was asked for (R61). -/
theorem opcode_of_decodeOp {op a b : Byte} {i : Instr} (h : decodeOp op a b = some i) : opcode i = op := by
  refine BitVec.eq_of_toNat_eq ?_
  unfold decodeOp at h
  split at h <;> cases h
  all_goals symm; assumption

theorem opcode_mem_supportedOpcodes (i : Instr) : opcode i ∈ supportedOpcodes := by
  cases i <;> simp [opcode, supportedOpcodes, handlerOpcodes, aluOpcodes]

theorem decodeOp_of_unsupported {op : Byte} (h : op ∉ supportedOpcodes) (a b : Byte) : decodeOp op a b = none := by
  refine Option.eq_none_iff_forall_ne_some.mpr fun i hi => h ?_
  rw [← opcode_of_decodeOp hi]
  exact opcode_mem_supportedOpcodes i

/-- An opcode outside the 23 is unsupported if its count field is 3 or its operand bytes are there. -/
theorem decode_of_unsupported {op : Byte} {tail : List Byte} (h : op ∉ supportedOpcodes)
    (hlen : opCount op = 3 ∨ opCount op ≤ tail.length) : decode (op :: tail) = .error .unsupported := by
  by_cases h3 : opCount op = 3
  · exact decode_count_three h3 tail
  · rw [decode_long h3 (hlen.resolve_left h3), decodeOp_of_unsupported h]

/-! ## The fetch -/

/-- A fetch at a PC inside memory reads the byte there, and after it two more or all that lie in memory. -/
theorem fetchBytes_eq_cons {s : State} (h : s.pc.toNat ≤ 255) :
    ∃ tail, fetchBytes s = s.mem.read s.pc.toNat :: tail ∧ tail.length = min 2 (255 - s.pc.toNat) := by
  obtain hpc | hpc | hpc : s.pc.toNat = 255 ∨ s.pc.toNat = 254 ∨ s.pc.toNat ≤ 253 := by omega
  · exact ⟨_, hpc ▸ fetchBytes_at_255 hpc, by rw [hpc]; rfl⟩
  · exact ⟨_, hpc ▸ fetchBytes_at_254 hpc, by rw [hpc]; rfl⟩
  · have hmin : min 2 (255 - s.pc.toNat) = 2 := by omega
    exact ⟨_, fetchBytes_inside hpc, hmin.symm⟩

/-- The fetch finds every operand byte that lies in memory, so an opcode outside the 23 is what fails. -/
theorem step_of_unsupported {s : State} (hs : s.status = .running) (hpc : s.pc.toNat ≤ 255)
    (hop : s.mem.read s.pc.toNat ∉ supportedOpcodes)
    (hlen : opCount (s.mem.read s.pc.toNat) = 3 ∨ s.pc.toNat + opCount (s.mem.read s.pc.toNat) ≤ 255) :
    step s = .next (takeError .unsupportedInstruction s) := by
  obtain ⟨tail, hfetch, htail⟩ := fetchBytes_eq_cons hpc
  have hle : opCount (s.mem.read s.pc.toNat) ≤ 3 := Nat.le_of_lt_succ (BitVec.isLt _)
  have hdecode : decode (fetchBytes s) = .error .unsupported := by
    rw [hfetch]
    exact decode_of_unsupported hop (by omega)
  rw [step_running hs, runCycle_error (fetchInstr_error hdecode), fetchError]

/-! ## How many byte values are unsupported -/

/-- The byte values whose count field is `c`, in order. -/
def fieldValues (c : Nat) : List Nat := List.range' (64 * c) 64

/-- How many byte values with count field `c` are outside the 23. -/
def unsupportedCount (c : Nat) : Nat := (fieldValues c).countP fun n => BitVec.ofNat 8 n ∉ supportedOpcodes

theorem mem_fieldValues {c n : Nat} : n ∈ fieldValues c ↔ n / 64 = c := by
  simp only [fieldValues, List.mem_range'_1]
  omega

theorem range_append_fieldValues (c : Nat) :
    List.range (64 * c) ++ fieldValues c = List.range (64 * (c + 1)) := by
  simpa [fieldValues, List.range_eq_range', Nat.mul_succ] using List.range'_append_1 (s := 0) (m := 64 * c) (n := 64)

theorem range_256_eq_fieldValues :
    List.range 256 = fieldValues 0 ++ fieldValues 1 ++ fieldValues 2 ++ fieldValues 3 :=
  calc List.range 256
    _ = List.range (64 * 3) ++ fieldValues 3 := (range_append_fieldValues 3).symm
    _ = List.range (64 * 2) ++ fieldValues 2 ++ fieldValues 3 := by rw [← range_append_fieldValues 2]
    _ = List.range (64 * 1) ++ fieldValues 1 ++ fieldValues 2 ++ fieldValues 3 := by rw [← range_append_fieldValues 1]
    _ = fieldValues 0 ++ fieldValues 1 ++ fieldValues 2 ++ fieldValues 3 := by
      rw [← range_append_fieldValues 0, Nat.mul_zero, List.range_zero, List.nil_append]

/-- Of the values with count field `d`, a filter on count field `c` keeps all or none. -/
theorem countP_fieldValues (p : Nat → Prop) [DecidablePred p] (c d : Nat) :
    (fieldValues d).countP (fun n => p n ∧ n / 64 = c) = if d = c then (fieldValues d).countP (p ·) else 0 := by
  split
  · next hdc =>
    refine List.countP_congr fun n hn => ?_
    simp [mem_fieldValues.mp hn, hdc]
  · next hdc =>
    refine List.countP_eq_zero.mpr fun n hn => ?_
    simp [mem_fieldValues.mp hn, hdc]

theorem length_filter_unsupported :
    ((List.range 256).filter fun n => BitVec.ofNat 8 n ∉ supportedOpcodes).length =
      unsupportedCount 0 + unsupportedCount 1 + unsupportedCount 2 + unsupportedCount 3 := by
  simp only [← List.countP_eq_length_filter, range_256_eq_fieldValues, List.countP_append, unsupportedCount]

theorem length_filter_unsupported_field {c : Nat} (hc : c < 4) :
    ((List.range 256).filter fun n => BitVec.ofNat 8 n ∉ supportedOpcodes ∧ n / 64 = c).length =
      unsupportedCount c := by
  simp only [← List.countP_eq_length_filter, range_256_eq_fieldValues, List.countP_append, countP_fieldValues,
    unsupportedCount]
  obtain rfl | rfl | rfl | rfl : c = 0 ∨ c = 1 ∨ c = 2 ∨ c = 3 := by omega
  all_goals simp

theorem unsupportedCount_zero : unsupportedCount 0 = 62 := by decide

theorem unsupportedCount_one : unsupportedCount 1 = 54 := by decide

theorem unsupportedCount_two : unsupportedCount 2 = 53 := by decide

theorem unsupportedCount_three : unsupportedCount 3 = 64 := by decide

/-- Settles O4: the error is the decoder's; the byte values outside the 23 are counted field by field. -/
theorem unsupportedOpcodesRaiseUnsupportedInstruction : Obligations.UnsupportedOpcodesRaiseUnsupportedInstruction := by
  refine ⟨fun s hs hpc hop hlen => ?_, ?_, ?_, ?_, ?_, ?_⟩
  · rw [← opCount_toNat] at hlen
    exact ⟨_, step_of_unsupported hs hpc hop hlen, status_takeError s _⟩
  · rw [length_filter_unsupported, unsupportedCount_zero, unsupportedCount_one, unsupportedCount_two,
      unsupportedCount_three]
  · rw [length_filter_unsupported_field (by decide), unsupportedCount_zero]
  · rw [length_filter_unsupported_field (by decide), unsupportedCount_one]
  · rw [length_filter_unsupported_field (by decide), unsupportedCount_two]
  · rw [length_filter_unsupported_field (by decide), unsupportedCount_three]

end Sys2Proof.Machine

/-! PROOFS. O23 to O32 and O35: the ALU instructions, shifts excepted (R74 to R83, R87). What the shapes of R73 leave
is said once, for `binaryAlu` and `unaryAlu`; each instruction adds the arithmetic of its result. -/

namespace Sys2Proof.Machine

/-! ## Decoding and errors, for any instruction -/

/-- Where the opcode map reads an instruction back, the decoder reads its encoding back and leaves nothing. -/
theorem decode_eq_of_opcodeMap {bytes : List Byte} {i : Instr} (hbytes : encode i = bytes)
    (hmap : Laws.OpcodeMap.Statement i) : decode bytes = .ok (i, []) := by
  have hcount : opCount (opcode i) = (operands i).length := (opCount_opcode i).1
  have hop := hmap []
  rw [List.append_nil] at hop
  rw [← hbytes, encode, decode_long (opCount_opcode_ne_three i) (Nat.le_of_eq hcount), hop, hcount]
  simp only [List.drop_length]

theorem raises_of_exec {k : ErrorKind} {i : Instr} {s : State} (h : exec i s = .next (takeError k s)) :
    Raises k i s :=
  ⟨takeError k s, h, status_takeError s k⟩

/-! ## The two ALU shapes (R73) -/

section Shapes

variable {a b : Reg} {s : State}

/-- Writing one register and moving on leaves the other registers, FL, the status and memory. -/
theorem advance_setReg_frame (n : Nat) (r : Reg) (v : Byte) (s : State) :
    (advance n (s.setReg r v)).pc = s.pc + BitVec.ofNat 9 n ∧ RegsSameBut [r] s (advance n (s.setReg r v)) ∧
      (advance n (s.setReg r v)).fl = s.fl ∧ (advance n (s.setReg r v)).status = s.status ∧
      MemSame s (advance n (s.setReg r v)) :=
  ⟨rfl, fun _ hr => reg_setReg_of_ne s v (List.ne_of_not_mem_cons hr), rfl, rfl, fun _ => rfl⟩

theorem binaryAlu_completes {op : Byte → Byte → Except ErrorKind Byte} {v : Byte}
    (h : op (s.reg a) (s.reg b) = .ok v) :
    ∃ t, binaryAlu op a.byte b.byte s = .next t ∧ t.reg a = v ∧
      t.pc = s.pc + 3 ∧ RegsSameBut [a] s t ∧ t.fl = s.fl ∧ t.status = s.status ∧ MemSame s t :=
  ⟨_, binaryAlu_ok h, reg_setReg_same s a v, advance_setReg_frame 3 a v s⟩

/-- The two-register operations that cannot fail: all but DIV and MOD. -/
theorem binaryAlu_pure_completes (f : Byte → Byte → Byte) (a b : Reg) (s : State) :
    ∃ t, binaryAlu (fun A B => .ok (f A B)) a.byte b.byte s = .next t ∧ t.reg a = f (s.reg a) (s.reg b) ∧
      t.pc = s.pc + 3 ∧ RegsSameBut [a] s t ∧ t.fl = s.fl ∧ t.status = s.status ∧ MemSame s t :=
  binaryAlu_completes rfl

theorem binaryAlu_raises {op : Byte → Byte → Except ErrorKind Byte} {k : ErrorKind}
    (h : op (s.reg a) (s.reg b) = .error k) :
    ∃ t, binaryAlu op a.byte b.byte s = .next t ∧ t.status = .error k ∧ RegsSameBut [] s t ∧ t.pc = s.pc :=
  ⟨_, binaryAlu_error h, status_takeError s k, fun r _ => reg_takeError s k r, pc_takeError s k⟩

theorem unaryAlu_completes (op : Byte → Byte) (a : Reg) (s : State) :
    ∃ t, unaryAlu op a.byte s = .next t ∧ t.reg a = op (s.reg a) ∧
      t.pc = s.pc + 2 ∧ RegsSameBut [a] s t ∧ t.fl = s.fl ∧ t.status = s.status ∧ MemSame s t :=
  ⟨_, unaryAlu_byte op a s, reg_setReg_same s a _, advance_setReg_frame 2 a _ s⟩

end Shapes

/-! ## Addition, subtraction, multiplication -/

/-- Settles O23: `aluAdd` narrows the integer sum, so it wraps (R74). -/
theorem addWritesSumModulo256 : Obligations.AddWritesSumModulo256 := by
  refine ⟨fun a b => decode_eq_of_opcodeMap rfl (Laws.OpcodeMap.add a b), fun a b s => ?_,
    fun a b s h => raises_of_exec (execAdd_illegal h s)⟩
  obtain ⟨t, ht, hres, hframe⟩ := binaryAlu_pure_completes aluAdd a b s
  exact ⟨t, ht, by rw [hres, toNat_aluAdd], hframe⟩

/-- Settles O24: `aluSub` narrows the integer difference (R75). -/
theorem subWritesDifferenceModulo256 : Obligations.SubWritesDifferenceModulo256 := by
  refine ⟨fun a b => decode_eq_of_opcodeMap rfl (Laws.OpcodeMap.sub a b), fun a b s => ?_,
    fun a b s h => raises_of_exec (execSub_illegal h s)⟩
  obtain ⟨t, ht, hres, hframe⟩ := binaryAlu_pure_completes aluSub a b s
  exact ⟨t, ht, by rw [hres, toNat_aluSub], hframe⟩

/-- Settles O25: `aluMul` narrows the integer product (R76). -/
theorem mulWritesLowByteOfProduct : Obligations.MulWritesLowByteOfProduct := by
  refine ⟨fun a b => decode_eq_of_opcodeMap rfl (Laws.OpcodeMap.mul a b), fun a b s => ?_,
    fun a b s h => raises_of_exec (execMul_illegal h s)⟩
  obtain ⟨t, ht, hres, hframe⟩ := binaryAlu_pure_completes aluMul a b s
  exact ⟨t, ht, by rw [hres, toNat_aluMul], hframe⟩

/-- Settles O28: `INC R7` is no special case of the one-register shape (R79). -/
theorem incAddsOneModulo256 : Obligations.IncAddsOneModulo256 := by
  refine ⟨fun a => decode_eq_of_opcodeMap rfl (Laws.OpcodeMap.inc a), fun a s => ?_,
    fun a s h => raises_of_exec (execInc_illegal h s)⟩
  obtain ⟨t, ht, hres, hframe⟩ := unaryAlu_completes aluInc a s
  exact ⟨t, ht, by rw [hres, toNat_aluInc], hframe⟩

/-- Settles O29: `DEC R7` is no special case of the one-register shape (R80). -/
theorem decSubtractsOneModulo256 : Obligations.DecSubtractsOneModulo256 := by
  refine ⟨fun a => decode_eq_of_opcodeMap rfl (Laws.OpcodeMap.dec a), fun a s => ?_,
    fun a s h => raises_of_exec (execDec_illegal h s)⟩
  obtain ⟨t, ht, hres, hframe⟩ := unaryAlu_completes aluDec a s
  exact ⟨t, ht, by rw [hres, toNat_aluDec], hframe⟩

/-! ## Division -/

/-- Settles O26: the split is on the divisor being 0, where the error discards the write (R77, R106). -/
theorem divWritesQuotientOrRaisesDivisionByZero : Obligations.DivWritesQuotientOrRaisesDivisionByZero := by
  refine ⟨fun a b => decode_eq_of_opcodeMap rfl (Laws.OpcodeMap.div a b), fun a b s hB => ?_, fun a b s hB => ?_,
    fun a b s h => raises_of_exec (execDiv_illegal h s)⟩
  · obtain ⟨v, hv, hval⟩ := aluDiv_ok (s.reg a) hB
    obtain ⟨t, ht, rfl, hframe⟩ := binaryAlu_completes hv
    exact ⟨t, ht, hval, hframe⟩
  · have hzero : aluDiv (s.reg a) (s.reg b) = .error .divisionByZero := by rw [hB, aluDiv_zero]
    exact binaryAlu_raises hzero

/-- Settles O27: the split is on the divisor being 0, and R78's identity is the one on naturals. -/
theorem modWritesRemainderOrRaisesDivisionByZero : Obligations.ModWritesRemainderOrRaisesDivisionByZero := by
  refine ⟨fun a b => decode_eq_of_opcodeMap rfl (Laws.OpcodeMap.mod a b), fun a b s hB => ?_, fun a b s hB => ?_,
    fun a b s h => raises_of_exec (execMod_illegal h s)⟩
  · obtain ⟨v, hv, hval⟩ := aluMod_ok (s.reg a) hB
    obtain ⟨t, ht, rfl, hframe⟩ := binaryAlu_completes hv
    exact ⟨t, ht, hval, by rw [hval, Nat.div_add_mod'], hframe⟩
  · have hzero : aluMod (s.reg a) (s.reg b) = .error .divisionByZero := by rw [hB, aluMod_zero]
    exact binaryAlu_raises hzero

/-! ## Bitwise operations -/

theorem getLsbD_aluAnd (A B : Byte) (k : Nat) : (aluAnd A B).getLsbD k = (A.getLsbD k && B.getLsbD k) :=
  BitVec.getLsbD_and

theorem getLsbD_aluXor (A B : Byte) (k : Nat) : (aluXor A B).getLsbD k = (A.getLsbD k ^^ B.getLsbD k) :=
  BitVec.getLsbD_xor

/-- Settles O30: the result, bit by bit (R81). -/
theorem andWritesBitwiseAnd : Obligations.AndWritesBitwiseAnd := by
  refine ⟨fun a b => decode_eq_of_opcodeMap rfl (Laws.OpcodeMap.and a b), fun a b s => ?_,
    fun a b s h => raises_of_exec (execAnd_illegal h s)⟩
  obtain ⟨t, ht, hres, hframe⟩ := binaryAlu_pure_completes aluAnd a b s
  exact ⟨t, ht, fun k _ => by rw [hres, getLsbD_aluAnd], hframe⟩

/-- Settles O31: the result, bit by bit (R82). -/
theorem xorWritesBitwiseExclusiveOr : Obligations.XorWritesBitwiseExclusiveOr := by
  refine ⟨fun a b => decode_eq_of_opcodeMap rfl (Laws.OpcodeMap.xor a b), fun a b s => ?_,
    fun a b s h => raises_of_exec (execXor_illegal h s)⟩
  obtain ⟨t, ht, hres, hframe⟩ := binaryAlu_pure_completes aluXor a b s
  exact ⟨t, ht, fun k _ => by rw [hres, getLsbD_aluXor], hframe⟩

/-- Settles O32: the 8-bit complement is the difference from 255 (R83). -/
theorem notWritesComplement : Obligations.NotWritesComplement := by
  refine ⟨fun a => decode_eq_of_opcodeMap rfl (Laws.OpcodeMap.not a), fun a s => ?_,
    fun a s h => raises_of_exec (execNot_illegal h s)⟩
  obtain ⟨t, ht, hres, hframe⟩ := unaryAlu_completes aluNot a s
  exact ⟨t, ht, by rw [hres, toNat_aluNot], hframe⟩

/-! ## Comparison -/

/-- The comparison never leaves FL empty, and the other three values of FL have one bit each (R87). -/
theorem compareFlags_count_set (A B : Byte) :
    [(compareFlags A B).E, (compareFlags A B).L, (compareFlags A B).G].count true = 1 := by
  unfold compareFlags
  split
  · rfl
  · split <;> rfl

/-- Settles O35: the next state's FL is `compareFlags` of the two registers, and its three bits decide the three
comparisons. -/
theorem cmpSetsTheFlagOfItsComparison : Obligations.CmpSetsTheFlagOfItsComparison := by
  refine ⟨fun a b => decode_eq_of_opcodeMap rfl (Laws.OpcodeMap.cmp a b), fun a b s => ?_,
    fun a b s h => raises_of_exec (execCmp_illegal h s)⟩
  refine ⟨_, execCmp_byte a b s, ?E, ?L, ?G, compareFlags_count_set _ _, rfl, fun _ _ => rfl, rfl, fun _ => rfl⟩
  case E => rw [fl_advance, fl_setFlags, compareFlags_E, decide_eq_true_iff]
  case L => rw [fl_advance, fl_setFlags, compareFlags_L, decide_eq_true_iff]
  case G => rw [fl_advance, fl_setFlags, compareFlags_G, decide_eq_true_iff]

end Sys2Proof.Machine

/-! PROOFS. O36: JMP (R90). -/

namespace Sys2Proof.Machine

/-- The 9-bit PC holds every byte, so a jump loses nothing of its target. -/
theorem toNat_pc_jump (target : Byte) (s : State) : (jump target s).pc.toNat = target.toNat := by
  rw [pc_jump, BitVec.toNat_setWidth_of_le (by decide)]

/-- A jump leaves every register, FL, the status and memory. -/
theorem jump_frame (target : Byte) (s : State) :
    RegsSameBut [] s (jump target s) ∧ (jump target s).fl = s.fl ∧ (jump target s).status = s.status ∧
      MemSame s (jump target s) :=
  ⟨fun r _ => reg_jump s target r, fl_jump s target, status_jump s target, fun _ => by rw [mem_jump]⟩

/-- Settles O36: JMP is one `jump` to the register's value, and `JMP R7` is no special case (R90). -/
theorem jmpGoesToTheRegisterValue : Obligations.JmpGoesToTheRegisterValue :=
  ⟨fun a => decode_eq_of_opcodeMap rfl (Laws.OpcodeMap.jmp a),
    fun a s => ⟨jump (s.reg a) s, execJmp_byte a s, toNat_pc_jump (s.reg a) s, jump_frame (s.reg a) s⟩,
    fun _ s h => raises_of_exec (execJmp_illegal h s)⟩

end Sys2Proof.Machine

/-! PROOFS. O10: a running step reports the first error of the cycle, and executes an instruction if there is none
(R67, R108). -/

namespace Sys2Proof.Machine

/-! ## The 23 opcodes name instructions -/

/-- The opcode map answers each of the 23, whatever the operand bytes. -/
theorem exists_decodeOp_of_supported {op : Byte} (h : op ∈ supportedOpcodes) (a b : Byte) :
    ∃ i, decodeOp op a b = some i := by
  have hall : supportedOpcodes.all (fun op => (decodeOp op a b).isSome) = true := rfl
  exact Option.isSome_iff_exists.mp (List.all_eq_true.mp hall op h)

/-- Every one of the 23 is the opcode of an instruction, and no instruction has count field 3. -/
theorem opCount_ne_three_of_supported {op : Byte} (h : op ∈ supportedOpcodes) : opCount op ≠ 3 := by
  obtain ⟨i, hi⟩ := exists_decodeOp_of_supported h 0 0
  rw [← opcode_of_decodeOp hi]
  exact opCount_opcode_ne_three i

/-- One of the 23 with its operand bytes there decodes, to an instruction of that opcode. -/
theorem decode_of_supported {op : Byte} {tail : List Byte} (h : op ∈ supportedOpcodes)
    (hlen : opCount op ≤ tail.length) : ∃ i rest, decode (op :: tail) = .ok (i, rest) ∧ opcode i = op := by
  obtain ⟨i, hi⟩ := exists_decodeOp_of_supported h (operandByte (opCount op) 0 tail) (operandByte (opCount op) 1 tail)
  refine ⟨i, tail.drop (opCount op), ?_, opcode_of_decodeOp hi⟩
  rw [decode_long (opCount_ne_three_of_supported h) hlen, hi]

/-! ## What a running step does, by what the decoder answers -/

section RunningStep

variable {s : State}

theorem step_of_decode_error {e : DecodeError} (hs : s.status = .running) (h : decode (fetchBytes s) = .error e) :
    step s = .next (takeError (fetchError e) s) := by
  rw [step_running hs, runCycle_error (fetchInstr_error h)]

theorem step_of_decode_ok {i : Instr} {rest : List Byte} (hs : s.status = .running)
    (h : decode (fetchBytes s) = .ok (i, rest)) : step s = exec i s := by
  rw [step_running hs, runCycle_ok (fetchInstr_ok h)]

/-- Past the end of memory the fetch reads no opcode. -/
theorem step_of_pc_past_end (hs : s.status = .running) (hpc : 255 < s.pc.toNat) :
    step s = .next (takeError .addressingError s) := by
  have hdecode : decode (fetchBytes s) = .error .outOfBytes := by rw [fetchBytes_past_end hpc, decode_nil]
  exact step_of_decode_error hs hdecode

/-- The fetch comes up short when the count field asks for a byte past address 255. -/
theorem step_of_operand_past_end (hs : s.status = .running) (hpc : s.pc.toNat ≤ 255)
    (h3 : opCount (s.mem.read s.pc.toNat) ≠ 3) (hlen : 255 < s.pc.toNat + opCount (s.mem.read s.pc.toNat)) :
    step s = .next (takeError .addressingError s) := by
  obtain ⟨tail, hfetch, htail⟩ := fetchBytes_eq_cons hpc
  have hlt : opCount (s.mem.read s.pc.toNat) < 4 := BitVec.isLt _
  have hdecode : decode (fetchBytes s) = .error .outOfBytes := by
    rw [hfetch]
    exact decode_short h3 (by omega)
  exact step_of_decode_error hs hdecode

theorem step_of_supported (hs : s.status = .running) (hop : s.mem.read s.pc.toNat ∈ supportedOpcodes)
    (hlen : s.pc.toNat + opCount (s.mem.read s.pc.toNat) ≤ 255) :
    ∃ i, opcode i = s.mem.read s.pc.toNat ∧ step s = exec i s := by
  obtain ⟨tail, hfetch, htail⟩ := fetchBytes_eq_cons (Nat.le_of_add_right_le hlen)
  have hlt : opCount (s.mem.read s.pc.toNat) < 4 := BitVec.isLt _
  have h3 := opCount_ne_three_of_supported hop
  obtain ⟨i, rest, hdecode, hopcode⟩ := decode_of_supported (tail := tail) hop (by omega)
  rw [← hfetch] at hdecode
  exact ⟨i, hopcode, step_of_decode_ok hs hdecode⟩

end RunningStep

/-- Settles O10: one lemma for each way the fetch can end; an opcode with count 3 is one of the unsupported. -/
theorem stepReportsTheFirstErrorOfTheCycle : Obligations.StepReportsTheFirstErrorOfTheCycle := by
  intro s hs
  simp only [← opCount_toNat]
  refine ⟨?opcodeFetch, ?countThree, ?operandFetch, ?unsupported, ?supported⟩
  case opcodeFetch => exact step_of_pc_past_end hs
  case countThree =>
    intro hpc h3
    exact step_of_unsupported hs hpc (fun hop => opCount_ne_three_of_supported hop h3) (.inl h3)
  case operandFetch => exact step_of_operand_past_end hs
  case unsupported =>
    intro _ hlen hop
    exact step_of_unsupported hs (Nat.le_of_add_right_le hlen) hop (.inr hlen)
  case supported => exact fun hlen hop => step_of_supported hs hop hlen

end Sys2Proof.Machine

/-! PROOFS. O56: the size check of `load_program` (R111, R123). -/

namespace Sys2Proof.Machine

theorem loadProgram_oversized {bytes : List Byte} (h : 256 < bytes.length) (s : State) :
    loadProgram bytes s = (.programTooLarge, s) := if_pos h

theorem loadProgram_fits {bytes : List Byte} (h : bytes.length ≤ 256) (s : State) :
    loadProgram bytes s = (.ok, { s with mem := storeBytes s.mem 0 bytes }) := if_neg (Nat.not_lt.mpr h)

/-- Settles O56: the two answers of the size check, which comes before any write. -/
theorem oversizedLoadChangesNothing : Obligations.OversizedLoadChangesNothing := by
  intro bytes s
  exact ⟨fun h => loadProgram_oversized h s, fun h => by rw [loadProgram_fits h]⟩

end Sys2Proof.Machine

/-! PROOFS. O1, O2 and O5: the decoder and the encoder are inverse to each other, so opcode and operand bytes say which
instruction it is (R61, R62), and bits 5 and 4 of an opcode say of which kind (R63, R69). -/

namespace Sys2Proof

/-- The law of `Laws.OpcodeMap` for every instruction: the opcode map reads it back. -/
theorem decodeOp_opcode (i : Instr) : Laws.OpcodeMap.Statement i := by
  cases i with
  | hlt => exact Laws.OpcodeMap.hlt
  | ret => exact Laws.OpcodeMap.ret
  | push a => exact Laws.OpcodeMap.push a
  | pop a => exact Laws.OpcodeMap.pop a
  | prn a => exact Laws.OpcodeMap.prn a
  | call a => exact Laws.OpcodeMap.call a
  | jmp a => exact Laws.OpcodeMap.jmp a
  | jeq a => exact Laws.OpcodeMap.jeq a
  | jne a => exact Laws.OpcodeMap.jne a
  | inc a => exact Laws.OpcodeMap.inc a
  | dec a => exact Laws.OpcodeMap.dec a
  | not a => exact Laws.OpcodeMap.not a
  | ldi a imm => exact Laws.OpcodeMap.ldi a imm
  | add a b => exact Laws.OpcodeMap.add a b
  | sub a b => exact Laws.OpcodeMap.sub a b
  | mul a b => exact Laws.OpcodeMap.mul a b
  | div a b => exact Laws.OpcodeMap.div a b
  | mod a b => exact Laws.OpcodeMap.mod a b
  | cmp a b => exact Laws.OpcodeMap.cmp a b
  | and a b => exact Laws.OpcodeMap.and a b
  | xor a b => exact Laws.OpcodeMap.xor a b
  | shl a b => exact Laws.OpcodeMap.shl a b
  | shr a b => exact Laws.OpcodeMap.shr a b

theorem decode_encode_append (i : Instr) (rest : List Byte) : decode (encode i ++ rest) = .ok (i, rest) := by
  obtain ⟨hcount, -⟩ := opCount_opcode i
  have hlen : opCount (opcode i) ≤ (operands i ++ rest).length := by rw [hcount, List.length_append]; omega
  rw [encode, List.cons_append, decode_long (opCount_opcode_ne_three i) hlen, decodeOp_opcode i rest, hcount]
  simp only [List.drop_left]

/-- Settles O1. -/
theorem decodeOfEncodeIsTheInstruction : Obligations.DecodeOfEncodeIsTheInstruction :=
  decode_encode_append

/-- The opcode map puts the operand bytes it is given into the instruction, as many as the instruction has. -/
theorem operands_of_decodeOp {op a b : Byte} {i : Instr} (h : decodeOp op a b = some i) :
    operands i = [a, b].take (operands i).length := by
  unfold decodeOp at h
  split at h <;> cases h <;> rfl

/-- The operand bytes the decoder takes, as far as the count field asks for them, are the bytes after the opcode. -/
theorem take_operandBytes {n : Nat} {tail : List Byte} (hn : n ≤ 2) (hlen : n ≤ tail.length) :
    [operandByte n 0 tail, operandByte n 1 tail].take n = tail.take n := by
  match n, tail with
  | 0, _ => rfl
  | 1, _ :: _ => rfl
  | 2, _ :: _ :: _ => rfl

theorem encode_append_of_decode {bytes rest : List Byte} {i : Instr} (h : decode bytes = .ok (i, rest)) :
    bytes = encode i ++ rest := by
  obtain ⟨op, tail, rfl, -, hlen, rfl, hop⟩ := decode_eq_ok h
  obtain rfl : opcode i = op := Machine.opcode_of_decodeOp hop
  obtain ⟨hcount, hle⟩ := opCount_opcode i
  have hoperands : operands i = tail.take (opCount (opcode i)) := by
    rw [operands_of_decodeOp hop, ← hcount]
    exact take_operandBytes (hcount ▸ hle) hlen
  rw [encode, List.cons_append, hoperands, List.take_append_drop]

/-- Settles O2: the opcode is the first byte, and its operands are the bytes that its count field takes. -/
theorem decodedBytesAreTheEncoding : Obligations.DecodedBytesAreTheEncoding :=
  fun _ _ _ h => encode_append_of_decode h

/-- An instruction is known by its bytes, since they decode to it. -/
theorem encode_injective {i j : Instr} (h : encode i = encode j) : i = j := by
  have hdecode : (Except.ok (i, []) : Except DecodeError (Instr × List Byte)) = .ok (j, []) := by
    rw [← decode_encode_append i [], ← decode_encode_append j [], h]
  exact congrArg Prod.fst (Except.ok.inj hdecode)

/-- What bits 5 and 4 say of each of the 23 opcodes (R63, R69). -/
theorem opcodeBits_of_supported : ∀ op ∈ Machine.supportedOpcodes,
    (opIsAlu op = true ↔ op ∈ Machine.aluOpcodes) ∧ (opIsAlu op = false ↔ op ∈ Machine.handlerOpcodes) ∧
      (opSetsPc op = true ↔ op ∈ Machine.controlOpcodes) := by
  decide

/-- Settles O5: the bits are a table of 23 rows; that no two instructions share their bytes is `encode_injective`. -/
theorem opcodeBitsClassifyInstructions : Obligations.OpcodeBitsClassifyInstructions := by
  constructor
  · intro i
    have hop := Machine.opcode_mem_supportedOpcodes i
    exact ⟨hop, opcodeBits_of_supported _ hop⟩
  · intro i j hop hoperands
    exact encode_injective (by rw [encode, encode, hop, hoperands])

end Sys2Proof

/-! PROOFS. What an instruction's effect leaves of each part of the state, said once for all 23 and read off the rules
of `Effect`. O53, O54, O12, O15, O16, O18, O19, O21 and O22 rest on it. -/

namespace Sys2Proof.Machine

section EffectLaws

variable {i : Instr} {s t : State}

theorem pc_branch_cases (taken : Bool) (target : Byte) (s : State) :
    (branch taken target s).pc = s.pc + BitVec.ofNat 9 2 ∨ (branch taken target s).pc = target.setWidth 9 := by
  cases taken with
  | true => exact .inr (by rw [branch_true, pc_jump])
  | false => exact .inl (by rw [branch_false, pc_advance])

/-! ## The effect, field by field -/

/-- The PC moves past the instruction, or a control transfer sets it to a byte (R68, R69). -/
theorem Effect.pc_cases (h : Effect i s t) :
    t.pc = s.pc + BitVec.ofNat 9 (encode i).length ∨
      opSetsPc (opcode i) = true ∧ ∃ target : Byte, t.pc = target.setWidth 9 := by
  cases h with
  | ret => exact .inr ⟨rfl, _, rfl⟩
  | jmp => exact .inr ⟨show opSetsPc 0x54 = true from rfl, _, rfl⟩
  | call => exact .inr ⟨show opSetsPc 0x50 = true from rfl, _, rfl⟩
  | jeq => exact (pc_branch_cases _ _ s).imp_right fun hpc => ⟨show opSetsPc 0x55 = true from rfl, _, hpc⟩
  | jne => exact (pc_branch_cases _ _ s).imp_right fun hpc => ⟨show opSetsPc 0x56 = true from rfl, _, hpc⟩
  | hlt | push | pop | prn | inc | dec | not | ldi | add | sub | mul | div | mod | cmp | and | xor | shl | shr =>
    exact .inl rfl

/-- Memory is kept, or one byte is written at the store address (R42). -/
theorem Effect.mem_cases (h : Effect i s t) :
    t.mem = s.mem ∨ ∃ addr v, storeAddress i s = some addr ∧ addr < 256 ∧ t.mem = s.mem.write addr v := by
  cases h with
  | push | call => exact .inr ⟨_, _, rfl, BitVec.isLt _, rfl⟩
  | jeq | jne => exact .inl (mem_branch s _ _)
  | hlt | ret | pop | prn | jmp | inc | dec | not | ldi | add | sub | mul | div | mod | cmp | and | xor | shl | shr =>
    exact .inl rfl

/-- FL is kept, or the instruction is CMP (R87). -/
theorem Effect.fl_cases (h : Effect i s t) : t.fl = s.fl ∨ ∃ a b, i = .cmp a b := by
  cases h with
  | cmp => exact .inr ⟨_, _, rfl⟩
  | jeq | jne => exact .inl (fl_branch s _ _)
  | hlt | ret | push | pop | prn | call | jmp | inc | dec | not | ldi | add | sub | mul | div | mod | and | xor | shl
  | shr => exact .inl rfl

/-- The status is kept, or the instruction is HLT and it becomes Halted (R99, R102). -/
theorem Effect.status_cases (h : Effect i s t) : t.status = s.status ∨ i = .hlt ∧ t.status = .halted := by
  cases h with
  | hlt => exact .inr ⟨rfl, rfl⟩
  | jeq | jne => exact .inl (status_branch s _ _)
  | ret | push | pop | prn | call | jmp | inc | dec | not | ldi | add | sub | mul | div | mod | cmp | and | xor | shl
  | shr => exact .inl rfl

/-- The record of emitted values is kept, or the instruction is PRN and its register's value is put at the end. -/
theorem Effect.out_cases (h : Effect i s t) :
    t.out = s.out ∨ ∃ a : Reg, i = .prn a.byte ∧ t.out = s.out ++ [s.reg a] := by
  cases h with
  | prn a => exact .inr ⟨a, rfl, rfl⟩
  | jeq | jne => exact .inl (out_branch s _ _)
  | hlt | ret | push | pop | call | jmp | inc | dec | not | ldi | add | sub | mul | div | mod | cmp | and | xor | shl
  | shr => exact .inl rfl

/-- A register outside R25's right column is kept. -/
theorem Effect.reg_of_not_written (h : Effect i s t) {r : Reg} (hr : r ∉ regsWritten i) : t.reg r = s.reg r := by
  cases h with
  | hlt | prn | jmp | cmp => rfl
  | jeq | jne => exact reg_branch s _ _ r
  | ret | push | call => exact reg_setReg_of_ne s _ (List.ne_of_not_mem_cons hr)
  | pop a =>
    have h7 : r ≠ .r7 := List.ne_of_not_mem_cons hr
    have ha : r ≠ a := fun h => hr (.tail _ (mem_regsOfByte.mpr (congrArg Reg.byte h.symm)))
    exact (reg_setReg_of_ne _ _ ha).trans (reg_setReg_of_ne s _ h7)
  | inc a | dec a | not a | ldi a | add a | sub a | mul a | div a | mod a | and a | xor a | shl a | shr a =>
    exact reg_setReg_of_ne s _ fun h => hr (mem_regsOfByte.mpr (congrArg Reg.byte h.symm))

end EffectLaws

/-! ## What an instruction may touch -/

/-- Settles O16: only CMP has a rule that writes FL, and an error keeps it. -/
theorem onlyCmpWritesFlags : Obligations.OnlyCmpWritesFlags := by
  constructor
  · intro i s t hne h
    rcases exec_cases h with heff | ⟨k, rfl⟩
    · exact heff.fl_cases.resolve_right fun ⟨a, b, hi⟩ => hne a b hi
    · exact fl_takeError s k
  · intro a b s
    exact ⟨_, execCmp_byte a b s, compareFlags_count_set (s.reg a) (s.reg b)⟩

/-- Settles O18: an effect that writes memory writes the store address, and an effect ends in no error. -/
theorem memoryWrittenOnlyAtTheStoreAddress : Obligations.MemoryWrittenOnlyAtTheStoreAddress := by
  intro i s t h
  rcases exec_cases h with heff | ⟨k, rfl⟩
  · constructor
    · intro x hx
      rcases heff.mem_cases with hmem | ⟨addr, v, haddr, -, hmem⟩
      · rw [hmem]
      · rw [hmem, Memory.read_write_of_ne]
        rintro rfl
        exact hx haddr
    · intro k hs hk
      rcases heff.status_cases with ht | ⟨-, ht⟩
      · rw [ht, hs] at hk; cases hk
      · rw [ht] at hk; cases hk
  · exact ⟨fun _ _ => rfl, fun _ _ _ _ => rfl⟩

/-- Settles O19. -/
theorem registersWrittenOnlyAsTabled : Obligations.RegistersWrittenOnlyAsTabled := by
  intro i s t h r hr
  rcases exec_cases h with heff | ⟨k, rfl⟩
  · exact heff.reg_of_not_written hr
  · exact reg_takeError s k r

/-- Settles O21: the other way the PC can go is a control transfer's. -/
theorem sequentialInstructionsAdvancePcByTheirLength : Obligations.SequentialInstructionsAdvancePcByTheirLength := by
  intro i s t hseq h hk
  rw [← opCount_toNat, (opCount_opcode i).1, ← encode_length]
  rcases exec_cases h with heff | ⟨k, rfl⟩
  · exact heff.pc_cases.resolve_right fun ⟨hctl, _⟩ => Bool.false_ne_true (hseq.symm.trans hctl)
  · exact absurd (status_takeError s k) (hk k)

/-- Settles O22: an error emits nothing. -/
theorem onlyPrnEmits : Obligations.OnlyPrnEmits := by
  intro i s t h
  rcases exec_cases h with heff | ⟨k, rfl⟩
  · exact heff.out_cases
  · exact .inl (out_takeError s k)

end Sys2Proof.Machine

/-! PROOFS. O12, O13, O15: what a step ends in (R31, R99, R106). -/

namespace Sys2Proof.Machine

/-- A running step ends running, or halted by an HLT, or in an error that is all it did. -/
theorem step_status_cases {s t : State} (hs : s.status = .running) (h : step s = .next t) :
    t.status = .running ∨ (t.status = .halted ∧ ∃ rest, decode (fetchBytes s) = .ok (.hlt, rest)) ∨
      ∃ k, t = takeError k s := by
  rcases step_cases h with ⟨hne, -⟩ | ⟨-, k, -, ht⟩ | ⟨-, i, rest, hdecode, hexec⟩
  · exact absurd hs hne
  · exact .inr (.inr ⟨k, ht⟩)
  · rcases exec_cases hexec with heff | herr
    · rcases heff.status_cases with ht | ⟨rfl, ht⟩
      · exact .inl (ht.trans hs)
      · exact .inr (.inl ⟨ht, rest, hdecode⟩)
    · exact .inr (.inr herr)

/-- Settles O12: of the three ends of a running step only `takeError` has an error status, and its kind is the one
taken. -/
theorem errorStepChangesOnlyTheStatus : Obligations.ErrorStepChangesOnlyTheStatus := by
  intro s t k hs h hk
  rcases step_status_cases hs h with ht | ⟨ht, -⟩ | ⟨k', rfl⟩
  · rw [ht] at hk; cases hk
  · rw [ht] at hk; cases hk
  · obtain rfl : k' = k := Status.error.inj hk
    rfl

/-- Settles O15: of the three ends of a running step only HLT's is Halted. -/
theorem onlyHltHalts : Obligations.OnlyHltHalts := by
  intro s t hs h
  rcases step_status_cases hs h with ht | ⟨ht, rest, hdecode⟩ | ⟨k, rfl⟩
  · exact ⟨fun hh => (nomatch ht.symm.trans hh), fun _ _ _ _ => .inl ht⟩
  · refine ⟨fun _ => ⟨rest, hdecode⟩, fun i rest' hi hne => absurd ?_ hne⟩
    exact congrArg Prod.fst (Except.ok.inj (hi.symm.trans hdecode))
  · exact ⟨fun hh => (nomatch hh), fun _ _ _ _ => .inr ⟨k, rfl⟩⟩

/-- Every meaning ends in `commit`, so none stops outside the state. -/
theorem exec_total (i : Instr) (s : State) : ∃ t, exec i s = .next t := by
  cases i with
  | hlt => exact ⟨_, rfl⟩
  | ret | push | pop | prn | call | jmp | jeq | jne | inc | dec | not | ldi | add | sub | mul | div | mod | cmp | and
  | xor | shl | shr => exact commit_total s _

theorem step_total (s : State) : ∃ t, step s = .next t := by
  by_cases hs : s.status = .running
  · cases hdecode : decode (fetchBytes s) with
    | error e => exact ⟨_, step_of_decode_error hs hdecode⟩
    | ok p => exact step_of_decode_ok hs hdecode ▸ exec_total p.1 s
  · exact ⟨s, step_stopped hs⟩

/-- Settles O13. -/
theorem everyStepAnswersNextState : Obligations.EveryStepAnswersNextState :=
  step_total

end Sys2Proof.Machine

/-! PROOFS. O50, O52, O53 and O54: the canonical form of memory (log 6) and the invariant of R38. -/

namespace Sys2Proof.Machine

/-! ## A canonical memory is what it reads as -/

/-- A canonical memory lists exactly the cells that read as something else than `Config.memInit`. -/
theorem Memory.mem_iff_read {m : Memory} (hm : m.wf) (c : Host.Cell) :
    c ∈ m ↔ m.read c.1 = c.2 ∧ c.2 ≠ Config.memInit := by
  obtain ⟨hsorted, hcells⟩ := hm
  constructor
  · intro hc
    exact ⟨Memory.read_of_mem hsorted hc, (hcells c hc).2⟩
  · rintro ⟨hread, hne⟩
    obtain ⟨d, hd, hdc⟩ : ∃ d ∈ m, d.1 = c.1 := by
      refine Classical.byContradiction fun hnone => hne ?_
      rw [← hread]
      exact Memory.read_of_not_listed fun d hd hdc => hnone ⟨d, hd, hdc⟩
    have hval : d.2 = c.2 := by rw [← hread, ← hdc, Memory.read_of_mem hsorted hd]
    exact Prod.ext hdc hval ▸ hd

theorem Memory.nodup_of_wf {m : Memory} (hm : m.wf) : m.Nodup :=
  hm.1.imp fun hlt heq => Nat.ne_of_lt hlt (congrArg Prod.fst heq)

/-- Settles O50: memories that read alike list the same cells, and a strictly sorted list is given by its cells. -/
theorem canonicalMemoriesThatReadAlikeAreEqual : Obligations.CanonicalMemoriesThatReadAlikeAreEqual := by
  intro m m' hm hm' hread
  have hmem : ∀ c, c ∈ m ↔ c ∈ m' := by
    intro c
    by_cases hc : c.1 ≤ 255
    · rw [Memory.mem_iff_read hm, Memory.mem_iff_read hm', hread c.1 hc]
    · have hout : ∀ {n : Memory}, n.wf → c ∉ n := fun hn hcn => hc (Nat.le_of_lt_succ (hn.2 c hcn).1)
      exact iff_of_false (hout hm) (hout hm')
  have hperm : m.Perm m' :=
    (List.perm_ext_iff_of_nodup (Memory.nodup_of_wf hm) (Memory.nodup_of_wf hm')).mpr hmem
  exact hperm.eq_of_pairwise (fun _ _ _ _ hlt hgt => absurd hgt (Nat.lt_asymm hlt)) hm.1 hm'.1

/-! ## Every step keeps the invariant -/

/-- The fetch reads three bytes, or as many as lie in memory. -/
theorem fetchBytes_eq_map (s : State) :
    fetchBytes s = (List.range (min 3 (256 - s.pc.toNat))).map fun k => s.mem.read (s.pc.toNat + k) := by
  obtain hpc | hpc | hpc | hpc :
      255 < s.pc.toNat ∨ s.pc.toNat = 255 ∨ s.pc.toNat = 254 ∨ s.pc.toNat ≤ 253 := by omega
  · rw [fetchBytes_past_end hpc, show min 3 (256 - s.pc.toNat) = 0 by omega]
    rfl
  · rw [fetchBytes_at_255 hpc, hpc]
    rfl
  · rw [fetchBytes_at_254 hpc, hpc]
    rfl
  · rw [fetchBytes_inside hpc, show min 3 (256 - s.pc.toNat) = 3 by omega]
    rfl

/-- An instruction that was fetched whole ends at address 256 at most. -/
theorem pc_add_length_le {s : State} {i : Instr} {rest : List Byte} (h : decode (fetchBytes s) = .ok (i, rest)) :
    s.pc.toNat + (encode i).length ≤ 256 := by
  have hlen : (encode i).length + rest.length = min 3 (256 - s.pc.toNat) := by
    rw [← List.length_append, ← encode_append_of_decode h, fetchBytes_eq_map, List.length_map, List.length_range]
  have hpos : 1 ≤ (encode i).length := by rw [encode_length]; omega
  omega

/-- An error keeps the invariant: it touches neither memory nor the PC. -/
theorem State.Inv.takeError {s : State} (h : s.Inv) (k : ErrorKind) : (takeError k s).Inv := h

/-- An effect keeps the invariant if the instruction ends at address 256 at most. -/
theorem Effect.keeps_inv {i : Instr} {s t : State} (h : Effect i s t) (hs : s.Inv)
    (hend : s.pc.toNat + (encode i).length ≤ 256) : t.Inv := by
  constructor
  case left =>
    rcases h.mem_cases with hmem | ⟨addr, v, -, haddr, hmem⟩
    · rw [hmem]
      exact hs.1
    · rw [hmem]
      exact Memory.wf_write hs.1 haddr v
  case right =>
    rcases h.pc_cases with hpc | ⟨-, target, hpc⟩
    · rw [hpc, BitVec.toNat_add, BitVec.toNat_ofNat]
      omega
    · rw [hpc, BitVec.toNat_setWidth_of_le (by decide)]
      omega

theorem step_keeps_inv {s t : State} (hs : s.Inv) (h : step s = .next t) : t.Inv := by
  rcases step_cases h with ⟨-, rfl⟩ | ⟨-, k, -, rfl⟩ | ⟨-, i, rest, hdecode, hexec⟩
  · exact hs
  · exact hs.takeError k
  · rcases exec_cases hexec with heff | ⟨k, rfl⟩
    · exact heff.keeps_inv hs (pc_add_length_le hdecode)
    · exact hs.takeError k

/-- Settles O53. -/
theorem everyStepKeepsInvariant : Obligations.EveryStepKeepsInvariant :=
  fun _ _ hs h => step_keeps_inv hs h

/-! ## The host's operations keep the invariant -/

theorem reset_inv : State.reset.Inv := ⟨wf_reset, by decide⟩

theorem hostReset_inv {s : State} (h : s.mem.wf) : (hostReset s).Inv := ⟨h, reset_inv.2⟩

/-- Settles O52: reset() takes the PC of the start state and the memory it finds. -/
theorem resetStateSatisfiesInvariant : Obligations.ResetStateSatisfiesInvariant :=
  ⟨reset_inv, fun _ h => hostReset_inv h⟩

theorem loadProgram_keeps_inv {s : State} (hs : s.Inv) (bytes : List Byte) : (loadProgram bytes s).2.Inv := by
  by_cases h : bytes.length ≤ 256
  · rw [loadProgram_fits h]
    exact ⟨wf_storeBytes hs.1 0 bytes, hs.2⟩
  · rw [loadProgram_oversized (Nat.lt_of_not_le h)]
    exact hs

theorem runLoop_keeps_inv {n : Nat} {s t : State} (hs : s.Inv) (h : runLoop n s = .next t) : t.Inv := by
  induction n generalizing s with
  | zero =>
    cases h
    exact hs
  | succ n ih =>
    obtain ⟨u, hu⟩ := step_total s
    have hui : u.Inv := step_keeps_inv hs hu
    simp only [runLoop, hu] at h
    split at h
    · exact ih hui h
    · cases h
      exact hui

theorem startRun_inv {s : State} (h : s.mem.wf) : (startRun s).Inv := ⟨h, reset_inv.2⟩

theorem run_keeps_inv {n : Nat} {s t : State} (hs : s.Inv) (h : run n s = .next t) : t.Inv :=
  runLoop_keeps_inv (startRun_inv hs.1) h

theorem writeRegister_keeps_inv {s t : State} {i : Nat} {v : Byte} (hs : s.Inv) (h : writeRegister i v s = .ok t) :
    t.Inv := by
  unfold writeRegister at h
  split at h
  · cases h
    exact hs
  · cases h

/-- Every way of reaching a state keeps the invariant, and construction meets it. -/
theorem Reachable.inv {s : State} (h : Reachable s) : s.Inv := by
  induction h with
  | construction => exact reset_inv
  | step _ hstep ih => exact step_keeps_inv ih hstep
  | reset _ ih => exact hostReset_inv ih.1
  | load bytes _ ih => exact loadProgram_keeps_inv ih bytes
  | run n _ hrun ih => exact run_keeps_inv ih hrun
  | writeRegister i v _ hwrite ih => exact writeRegister_keeps_inv ih hwrite

/-- Settles O54. -/
theorem hostOperationsKeepInvariantSoReachableStatesSatisfyIt :
    Obligations.HostOperationsKeepInvariantSoReachableStatesSatisfyIt :=
  ⟨fun _ bytes hs => loadProgram_keeps_inv hs bytes, fun _ hs => hostReset_inv hs.1,
    fun _ _ _ hs h => run_keeps_inv hs h, fun _ _ _ _ hs h => writeRegister_keeps_inv hs h, fun _ h => h.inv⟩

end Sys2Proof.Machine

/-! PROOFS. O6 to O9 and O11: words, operand bytes, the fetch of a stored instruction, and the register check (R24, R58,
R62). -/

namespace Sys2Proof.Machine

/-- Settles O6: each word is the encoding of its instruction, bit by bit. -/
theorem specWordsDecodeToTheirInstructions : Obligations.SpecWordsDecodeToTheirInstructions :=
  ⟨decode_encode_append (.add 0 1) [], decode_encode_append (.inc 3) [], decode_encode_append (.call 1) [],
    decode_encode_append .ret [], decode_encode_append (.pop 7) [], decode_encode_append (.ldi 5 255) [],
    decode_encode_append (.prn 2) [], decode_encode_append .hlt []⟩

/-! ## The register check -/

theorem Reg.exists_byte_iff {b : Byte} : (∃ r : Reg, b = r.byte) ↔ b.toNat ≤ 7 :=
  ⟨fun ⟨r, hr⟩ => hr ▸ Nat.le_of_lt_succ r.byte_lt, fun h => Reg.exists_byte (Nat.lt_succ_of_le h)⟩

theorem isRegByte_both_eq_true {a b : Byte} :
    (isRegByte a && isRegByte b) = true ↔ a.toNat ≤ 7 ∧ b.toNat ≤ 7 := by
  rw [Bool.and_eq_true, isRegByte_eq_true, isRegByte_eq_true]

theorem isRegByte_both_eq_false {a b : Byte} :
    (isRegByte a && isRegByte b) = false ↔ 7 < a.toNat ∨ 7 < b.toNat := by
  rw [Bool.and_eq_false_iff, isRegByte_eq_false, isRegByte_eq_false]

/-- Settles O7: the check of each of the 21 instructions with register operands is `isRegByte` of one byte or of two. -/
theorem registerOperandBytesAreZeroToSeven : Obligations.RegisterOperandBytesAreZeroToSeven := by
  refine ⟨fun _ => Reg.exists_byte_iff, fun _ _ => Reg.byte_injective, ⟨rfl, rfl⟩, fun a i hi => ?oneOperand,
    fun _ _ => isRegByte_eq_true, fun a b i hi => ?twoOperands⟩
  case oneOperand =>
    have hwf : i.wf = isRegByte a := by
      simp only [List.mem_cons, List.not_mem_nil, or_false] at hi
      rcases hi with rfl | rfl | rfl | rfl | rfl | rfl | rfl | rfl | rfl | rfl <;> rfl
    rw [hwf, isRegByte_eq_true]
  case twoOperands =>
    have hwf : i.wf = (isRegByte a && isRegByte b) := by
      simp only [List.mem_cons, List.not_mem_nil, or_false] at hi
      rcases hi with rfl | rfl | rfl | rfl | rfl | rfl | rfl | rfl | rfl | rfl <;> rfl
    rw [hwf, isRegByte_both_eq_true]

/-- Settles O11: every meaning checks its register operands before it does anything else. -/
theorem illegalRegisterOperandRaisesAddressingError : Obligations.IllegalRegisterOperandRaisesAddressingError := by
  intro i s h
  cases i with
  | hlt | ret => cases h
  | push => exact execPush_illegal (isRegByte_eq_false.mp h) s
  | pop => exact execPop_illegal (isRegByte_eq_false.mp h) s
  | prn => exact execPrn_illegal (isRegByte_eq_false.mp h) s
  | call => exact execCall_illegal (isRegByte_eq_false.mp h) s
  | jmp => exact execJmp_illegal (isRegByte_eq_false.mp h) s
  | jeq => exact execJeq_illegal (isRegByte_eq_false.mp h) s
  | jne => exact execJne_illegal (isRegByte_eq_false.mp h) s
  | ldi a imm => exact execLdi_illegal (isRegByte_eq_false.mp h) imm s
  | inc => exact execInc_illegal (isRegByte_eq_false.mp h) s
  | dec => exact execDec_illegal (isRegByte_eq_false.mp h) s
  | not => exact execNot_illegal (isRegByte_eq_false.mp h) s
  | cmp => exact execCmp_illegal (isRegByte_both_eq_false.mp h) s
  | add => exact execAdd_illegal (isRegByte_both_eq_false.mp h) s
  | sub => exact execSub_illegal (isRegByte_both_eq_false.mp h) s
  | mul => exact execMul_illegal (isRegByte_both_eq_false.mp h) s
  | div => exact execDiv_illegal (isRegByte_both_eq_false.mp h) s
  | mod => exact execMod_illegal (isRegByte_both_eq_false.mp h) s
  | and => exact execAnd_illegal (isRegByte_both_eq_false.mp h) s
  | xor => exact execXor_illegal (isRegByte_both_eq_false.mp h) s
  | shl => exact execShl_illegal (isRegByte_both_eq_false.mp h) s
  | shr => exact execShr_illegal (isRegByte_both_eq_false.mp h) s

/-! ## The fetch of a stored instruction -/

/-- Settles O8. -/
theorem stepExecutesTheDecodedInstruction : Obligations.StepExecutesTheDecodedInstruction :=
  fun _ _ _ hs hdecode => step_of_decode_ok hs hdecode

/-- Settles O9: the encoding is the front of the bytes fetched, and the decoder does not look at the rest of them. -/
theorem stepExecutesTheInstructionStoredAtPc : Obligations.StepExecutesTheInstructionStoredAtPc := by
  intro s i hs hstored
  have hlen : (encode i).length ≤ min 3 (256 - s.pc.toNat) := by
    obtain ⟨-, hcount⟩ := opCount_opcode i
    have hencode := encode_length i
    obtain ⟨hlast, -⟩ := hstored (operands i).length (by omega)
    omega
  have hfront : encode i <+: fetchBytes s := by
    rw [fetchBytes_eq_map, List.prefix_iff_getElem]
    refine ⟨by simpa using hlen, fun k hk => ?_⟩
    rw [List.getElem_map, List.getElem_range, (hstored k hk).2]
  obtain ⟨rest, hrest⟩ := hfront
  exact step_of_decode_ok hs (hrest ▸ decode_encode_append i rest)

end Sys2Proof.Machine

/-! PROOFS. O33, O34, O37, O38 and O43 to O45: shifts, conditional jumps, and LDI, PRN and HLT (R84 to R86, R91, R92,
R100 to R102). -/

namespace Sys2Proof.Machine

/-- Settles O33: the shift multiplies by a power of two and keeps the low byte (R85). -/
theorem shlShiftsLeftByMaskedAmount : Obligations.ShlShiftsLeftByMaskedAmount := by
  refine ⟨fun a b => decode_encode_append (.shl a b) [], fun a b s => ?_,
    fun a b s h => raises_of_exec (execShl_illegal h s)⟩
  obtain ⟨t, ht, hres, hframe⟩ := binaryAlu_pure_completes aluShl a b s
  exact ⟨t, ht, by rw [hres, toNat_aluShl], hframe⟩

/-- Settles O34: the shift is a division by a power of two (R86). -/
theorem shrShiftsRightByMaskedAmount : Obligations.ShrShiftsRightByMaskedAmount := by
  refine ⟨fun a b => decode_encode_append (.shr a b) [], fun a b s => ?_,
    fun a b s h => raises_of_exec (execShr_illegal h s)⟩
  obtain ⟨t, ht, hres, hframe⟩ := binaryAlu_pure_completes aluShr a b s
  exact ⟨t, ht, by rw [hres, toNat_aluShr], hframe⟩

/-! ## Conditional jumps -/

/-- A branch sets the PC by its condition and leaves all the rest (R89). -/
theorem branch_frame (taken : Bool) (target : Byte) (s : State) :
    RegsSameBut [] s (branch taken target s) ∧ (branch taken target s).fl = s.fl ∧
      (branch taken target s).status = s.status ∧ (branch taken target s).out = s.out ∧
      MemSame s (branch taken target s) :=
  ⟨fun r _ => reg_branch s taken target r, fl_branch s taken target, status_branch s taken target,
    out_branch s taken target, fun _ => by rw [mem_branch]⟩

theorem toNat_pc_branch_taken {taken : Bool} (h : taken = true) (target : Byte) (s : State) :
    (branch taken target s).pc.toNat = target.toNat := by
  rw [h, branch_true, toNat_pc_jump]

theorem pc_branch_not_taken {taken : Bool} (h : taken = false) (target : Byte) (s : State) :
    (branch taken target s).pc = s.pc + 2 := by
  rw [h, branch_false]
  rfl

/-- Settles O37: JEQ is a branch on E. -/
theorem jeqJumpsExactlyWhenEqual : Obligations.JeqJumpsExactlyWhenEqual :=
  ⟨fun a => decode_encode_append (.jeq a) [],
    fun a s => ⟨_, execJeq_byte a s, fun hE => toNat_pc_branch_taken hE _ s, fun hE => pc_branch_not_taken hE _ s,
      branch_frame _ _ s⟩,
    fun _ s h => raises_of_exec (execJeq_illegal h s)⟩

/-- Settles O38: JNE is a branch on E clear. -/
theorem jneJumpsExactlyWhenNotEqual : Obligations.JneJumpsExactlyWhenNotEqual :=
  ⟨fun a => decode_encode_append (.jne a) [],
    fun a s => ⟨_, execJne_byte a s, fun hE => toNat_pc_branch_taken (by rw [hE]; rfl) _ s,
      fun hE => pc_branch_not_taken (by rw [hE]; rfl) _ s, branch_frame _ _ s⟩,
    fun _ s h => raises_of_exec (execJne_illegal h s)⟩

/-! ## LDI, PRN, HLT -/

/-- An LDI at the end of memory lacks an operand byte, whatever register it names. -/
theorem step_ldi_past_end {s : State} (hs : s.status = .running) (hpc : s.pc.toNat = 254 ∨ s.pc.toNat = 255)
    (hop : s.mem.read s.pc.toNat = 0x82) : step s = .next (takeError .addressingError s) := by
  have hcount : opCount (s.mem.read s.pc.toNat) = 2 := by rw [hop]; rfl
  exact step_of_operand_past_end hs (by omega) (by omega) (by omega)

/-- Settles O43: LDI writes one register and moves on; a PRN after it reads what was written. -/
theorem ldiLoadsTheImmediate : Obligations.LdiLoadsTheImmediate := by
  refine ⟨fun a imm => decode_encode_append (.ldi a imm) [], fun a imm s => ?completes,
    fun a imm s h => raises_of_exec (execLdi_illegal h imm s),
    fun s hs hpc hop => ⟨_, step_ldi_past_end hs hpc hop, status_takeError s _⟩⟩
  case completes =>
    obtain ⟨hpc, hregs, hfl, hstatus, hmem⟩ := advance_setReg_frame 3 a imm s
    have hreg : (advance 3 (s.setReg a imm)).reg a = imm := reg_setReg_same s a imm
    refine ⟨_, execLdi_byte a imm s, hreg, hpc, hregs, hfl, hstatus, rfl, hmem, _, execPrn_byte a _, ?_⟩
    rw [out_advance, out_emit, hreg, out_advance, out_setReg]

/-- Settles O44: PRN touches the record of emitted values and the PC (R101). -/
theorem prnEmitsTheRegister : Obligations.PrnEmitsTheRegister :=
  ⟨fun a => decode_encode_append (.prn a) [],
    fun a s => ⟨_, execPrn_byte a s, rfl, rfl, fun _ _ => rfl, rfl, rfl, fun _ => rfl⟩,
    fun _ s h => ⟨_, execPrn_illegal h s, status_takeError s _, out_takeError s _⟩⟩

/-- Settles O45: HLT touches the PC and the status (R102). -/
theorem hltHaltsPastItself : Obligations.HltHaltsPastItself :=
  ⟨decode_encode_append .hlt [],
    fun s => ⟨halt (advance 1 s), rfl, rfl, rfl, fun _ _ => rfl, rfl, rfl, fun _ => rfl⟩⟩

end Sys2Proof.Machine

/-! PROOFS. O39 to O42, O46 to O48 and O51: the stack (R93 to R98). What PUSH, POP, CALL and RET leave is said once,
with SP as a byte; the laws of the stack follow from it. -/

namespace Sys2Proof.Machine

/-! ## SP as a byte -/

theorem toNat_sub_one {x : Byte} (h : x ≠ 0) : (x - 1).toNat = x.toNat - 1 := by bv_omega

theorem toNat_add_one {x : Byte} (h : x ≠ 255) : (x + 1).toNat = x.toNat + 1 := by bv_omega

theorem sub_one_ne_last {x : Byte} (h : x ≠ 0) : x - 1 ≠ 255 := by bv_omega

/-- Where CALL completes, its return address fits a byte. -/
theorem toNat_returnAddress {s : State} (h : s.pc.toNat + 2 ≤ 255) :
    (BitVec.ofNat 8 (s.pc.toNat + 2)).toNat = s.pc.toNat + 2 := by
  rw [BitVec.toNat_ofNat]
  omega

/-! ## Pushing and popping (R95) -/

/-- A push changes no register but SP. -/
theorem pushed_regsSameBut (v : Byte) (s : State) : RegsSameBut [.r7] s (pushed v s) :=
  fun _ hr => reg_setReg_of_ne s _ (List.ne_of_not_mem_cons hr)

theorem pushed_sp (v : Byte) (s : State) : (pushed v s).reg .r7 = s.reg .r7 - 1 :=
  reg_setReg_same s .r7 _

theorem toNat_pushed_sp {s : State} (h : s.reg .r7 ≠ 0) (v : Byte) :
    ((pushed v s).reg .r7).toNat = (s.reg .r7).toNat - 1 := by
  rw [pushed_sp, toNat_sub_one h]

/-- A push stores its byte at the address below SP and no byte elsewhere. -/
theorem pushed_store (v : Byte) (s : State) {addr : Nat} (h : some (s.reg .r7 - 1).toNat = some addr) :
    (pushed v s).mem.read addr = v ∧ MemSameBut addr s (pushed v s) := by
  obtain rfl := Option.some.inj h
  exact ⟨Memory.read_write_same s.mem _ v, fun _ hx => Memory.read_write_of_ne s.mem v hx⟩

/-- A pop changes no register but SP and its destination. -/
theorem popped_regsSameBut (a : Reg) (v w : Byte) (s : State) :
    RegsSameBut [.r7, a] s ((s.setReg .r7 v).setReg a w) := by
  intro r hr
  simp only [List.mem_cons, List.not_mem_nil, or_false, not_or] at hr
  rw [reg_setReg_of_ne _ w hr.2, reg_setReg_of_ne s v hr.1]

/-- Settles O41: PUSH is a push of the register's old value (R96). -/
theorem pushStoresTheRegisterBelowSp : Obligations.PushStoresTheRegisterBelowSp :=
  ⟨fun a => decode_encode_append (.push a) [],
    fun a s h => ⟨_, execPush_byte a h, rfl, toNat_pushed_sp h (s.reg a), congrArg some (toNat_sub_one h),
      fun _ haddr => pushed_store (s.reg a) s haddr, pushed_regsSameBut (s.reg a) s, rfl, rfl, rfl⟩,
    fun a _ h => execPush_underflow a h⟩

/-- Settles O42: POP's last write is the popped byte's (R97). -/
theorem popLoadsTheByteAtSp : Obligations.PopLoadsTheByteAtSp := by
  refine ⟨fun a => decode_encode_append (.pop a) [], fun a s h => ?_, fun a s h => execPop_overflow a h⟩
  refine ⟨_, execPop_byte a h, reg_setReg_same _ a _, fun ha => ?_, rfl,
    popped_regsSameBut a _ _ s, rfl, rfl, rfl, fun _ => rfl⟩
  rw [State.sp_eq, reg_advance, reg_setReg_of_ne _ _ ha.symm, reg_setReg_same]
  exact toNat_add_one h

/-- Settles O39: CALL is a push of the return address and a jump to the old value of its register (R93). -/
theorem callPushesReturnAddressAndJumps : Obligations.CallPushesReturnAddressAndJumps := by
  refine ⟨fun a => decode_encode_append (.call a) [], fun a s hpc h => ?completes,
    fun a s h => execCall_error a (h.imp_left (by omega))⟩
  case completes =>
    have hreturn := toNat_returnAddress hpc
    generalize hret : BitVec.ofNat 8 (s.pc.toNat + 2) = ret at hreturn
    refine ⟨jump (s.reg a) (pushed ret s), hret ▸ execCall_byte a (Nat.lt_succ_of_le hpc) h, toNat_pc_jump _ _,
      toNat_pushed_sp h ret, congrArg some (toNat_sub_one h), fun addr haddr => ?_, pushed_regsSameBut ret s, rfl,
      rfl, rfl⟩
    obtain ⟨hread, hmem⟩ := pushed_store ret s haddr
    exact ⟨by rw [mem_jump, hread, hreturn], hmem⟩

/-- Settles O40: RET is a pop into the PC (R94). -/
theorem retPopsPcFromTheStack : Obligations.RetPopsPcFromTheStack := by
  refine ⟨decode_encode_append .ret [], fun s h => ?_, fun s h => execRet_overflow h⟩
  refine ⟨_, execRet_ok h, toNat_pc_jump _ _, ?_, fun r hr => reg_setReg_of_ne s _ (List.ne_of_not_mem_cons hr), rfl,
    rfl, rfl, fun _ => rfl⟩
  rw [State.sp_eq, reg_jump, reg_setReg_same]
  exact toNat_add_one h

/-! ## The laws of the stack (R98) -/

/-- What of a PUSH the laws speak of: SP moves down, and the byte is stored there. -/
theorem execPush_sp_mem (a : Reg) {s : State} (h : s.reg .r7 ≠ 0) :
    ∃ t, exec (.push a.byte) s = .next t ∧ t.reg .r7 = s.reg .r7 - 1 ∧
      t.mem = s.mem.write (s.reg .r7 - 1).toNat (s.reg a) :=
  ⟨_, execPush_byte a h, pushed_sp (s.reg a) s, mem_pushed (s.reg a) s⟩

section AfterPush

variable {s u : State} {v : Byte} (h : s.reg .r7 ≠ 0) (hsp : u.reg .r7 = s.reg .r7 - 1)
  (hread : u.mem.read (s.reg .r7 - 1).toNat = v)

include h hsp hread

/-- A POP in a state `u` whose SP and byte at SP are as a push of `v` in `s` left them. -/
theorem pop_after_push (a : Reg) :
    ∃ w, exec (.pop a.byte) u = .next w ∧ w.reg a = v ∧ (a ≠ .r7 → w.reg .r7 = s.reg .r7) ∧
      RegsSameBut [.r7, a] u w ∧ w.mem = u.mem := by
  refine ⟨_, execPop_byte a (hsp ▸ sub_one_ne_last h), ?value, fun ha => ?sp, popped_regsSameBut a _ _ u, rfl⟩
  case value => rw [reg_advance, reg_setReg_same, hsp, hread]
  case sp => rw [reg_advance, reg_setReg_of_ne _ _ ha.symm, reg_setReg_same, hsp, BitVec.sub_add_cancel]

/-- A RET in such a state. -/
theorem ret_after_push :
    ∃ w, exec .ret u = .next w ∧ w.pc.toNat = v.toNat ∧ w.reg .r7 = s.reg .r7 := by
  refine ⟨_, execRet_ok (hsp ▸ sub_one_ne_last h), ?pc, ?sp⟩
  case pc => rw [toNat_pc_jump, hsp, hread]
  case sp => rw [reg_jump, reg_setReg_same, hsp, BitVec.sub_add_cancel]

end AfterPush

/-- Settles O46: SP goes up by what it went down, and for R7 the popped byte is the old SP itself. -/
theorem popAfterPushRestoresValueAndSp : Obligations.PopAfterPushRestoresValueAndSp := by
  intro a s h
  obtain ⟨t, ht, hsp, hmem⟩ := execPush_sp_mem a h
  refine ⟨t, ht, fun u husp hread => ?_⟩
  rw [State.sp_eq, hsp, hmem, Memory.read_write_same] at hread
  obtain ⟨w, hw, hval, hwsp, -⟩ := pop_after_push h (husp.trans hsp) hread a
  refine ⟨w, hw, hval, ?_⟩
  by_cases ha : a = .r7
  · subst ha
    exact hval
  · exact hwsp ha

/-- Settles O47: the byte at SP is the return address. -/
theorem retAfterCallReturnsPastTheCall : Obligations.RetAfterCallReturnsPastTheCall := by
  intro a s hpc h
  refine ⟨_, execCall_byte a (Nat.lt_succ_of_le hpc) h, fun u husp hread => ?_⟩
  simp only [State.sp_eq, reg_jump, pushed_sp, mem_jump, mem_pushed, Memory.read_write_same] at husp hread
  obtain ⟨w, hw, hwpc, hwsp⟩ := ret_after_push h husp hread
  exact ⟨w, hw, hwpc.trans (toNat_returnAddress hpc), hwsp⟩

/-- Settles O48: each pop finds SP and the byte there as its push left them, since the second push is below the first
one's byte and a pop writes no memory. -/
theorem stackIsLastInFirstOut : Obligations.StackIsLastInFirstOut := by
  intro a b c d s h hc hd hcd
  rw [State.sp_eq] at h
  have h0 : s.reg .r7 ≠ 0 := by bv_omega
  have h1 : s.reg .r7 - 1 ≠ 0 := by bv_omega
  have hbelow : (s.reg .r7 - 1).toNat ≠ (s.reg .r7 - 1 - 1).toNat := by bv_omega
  obtain ⟨s1, hs1, hsp1, hmem1⟩ := execPush_sp_mem a h0
  rw [← hsp1] at h1 hbelow
  obtain ⟨s2, hs2, hsp2, hmem2⟩ := execPush_sp_mem b h1
  have hread2 : s2.mem.read (s1.reg .r7 - 1).toNat = s1.reg b := by rw [hmem2, Memory.read_write_same]
  obtain ⟨s3, hs3, hval3, hsp3, -, hmem3⟩ := pop_after_push h1 hsp2 hread2 c
  have hread3 : s3.mem.read (s.reg .r7 - 1).toNat = s.reg a := by
    rw [hmem3, hmem2, ← hsp1, Memory.read_write_of_ne _ _ hbelow, hmem1, hsp1, Memory.read_write_same]
  obtain ⟨s4, hs4, hval4, hsp4, hregs4, -⟩ := pop_after_push h0 ((hsp3 hc).trans hsp1) hread3 d
  refine ⟨s1, s2, s3, s4, hs1, hs2, hs3, hs4, ?_, hval4, hsp4 hd⟩
  rw [hregs4 c (by simp [hc, hcd]), hval3]

/-- Settles O51: the next fetch reads the memory the PUSH left, at the PC it left. -/
theorem nextFetchSeesThePushedByte : Obligations.NextFetchSeesThePushedByte := by
  intro a s h hpc
  have hlt := (s.reg .r7).isLt
  have hsp : (s.reg .r7 - 1).toNat = s.pc.toNat + 2 := (toNat_sub_one h).trans hpc
  have hnext : (advance 2 (pushed (s.reg a) s)).pc.toNat = (s.reg .r7 - 1).toNat := by
    rw [pc_advance, pc_pushed, BitVec.toNat_add, BitVec.toNat_ofNat, hsp]
    omega
  obtain ⟨tail, hfetch, -⟩ := fetchBytes_eq_cons (s := advance 2 (pushed (s.reg a) s)) (by omega)
  refine ⟨_, tail, execPush_byte a h, ?_⟩
  rw [hfetch, hnext, mem_advance, mem_pushed, Memory.read_write_same]

end Sys2Proof.Machine

/-! PROOFS. O14, O55 and O57 to O60: the host's operations (R122 to R127). -/

namespace Sys2Proof.Machine

/-- Settles O55: reset() and construction set the same values, and reset() keeps memory and the record. -/
theorem hostResetRestoresTheStartState : Obligations.HostResetRestoresTheStartState := by
  refine ⟨fun s => ⟨rfl, fun r hr => ?_, rfl, rfl, rfl, rfl, rfl, fun _ => rfl, rfl⟩, rfl, fun _ => rfl⟩
  cases r with
  | r7 => exact absurd rfl hr
  | r0 | r1 | r2 | r3 | r4 | r5 | r6 => rfl

/-- Settles O57: the size check passes, and memory is what `storeBytes` from address 0 leaves. -/
theorem loadPlacesBytesFromAddressZero : Obligations.LoadPlacesBytesFromAddressZero := by
  intro bytes s hlen
  rw [loadProgram_fits hlen]
  have hread := fun i => read_storeBytes s.mem 0 i bytes (by omega)
  refine ⟨rfl, fun i hi => ?_, fun i hi => ?_, rfl⟩
  · rw [hread i, if_pos (by omega), Nat.sub_zero, ← List.getElem_eq_getD (h := hi)]
  · rw [hread i, if_neg (by omega)]

/-! ## Running -/

theorem core_run_succ {s t : State} (h : step s = .next t) (n : Nat) : core.run (n + 1) s = core.run n t := by
  have hcore : core.step s = .next t := h
  simp only [Host.Core.run, hcore]

theorem core_run_stopped {s : State} (h : s.status ≠ .running) (n : Nat) : core.run n s = .next s := by
  induction n with
  | zero => rfl
  | succ n ih => rw [core_run_succ (step_stopped h), ih]

/-- Settles O14. -/
theorem stoppedBlockStaysStopped : Obligations.StoppedBlockStaysStopped :=
  fun n _ h => core_run_stopped h n

/-- Running on from where a run ended is one longer run. -/
theorem core_run_add {n : Nat} {s t : State} (h : core.run n s = .next t) (k : Nat) :
    core.run (n + k) s = core.run k t := by
  induction n generalizing s with
  | zero =>
    obtain rfl : s = t := Host.Outcome.next.inj h
    rw [Nat.zero_add]
  | succ n ih =>
    obtain ⟨u, hu⟩ := step_total s
    rw [core_run_succ hu] at h
    rw [Nat.succ_add, core_run_succ hu, ih h]

/-- Stopping early at a stop makes no difference, since the machine stays there (R110, R125). -/
theorem runLoop_eq_core_run (n : Nat) (s : State) : runLoop n s = core.run n s := by
  induction n generalizing s with
  | zero => rfl
  | succ n ih =>
    obtain ⟨t, ht⟩ := step_total s
    rw [core_run_succ ht, runLoop, ht]
    simp only
    split
    · exact ih t
    · exact (core_run_stopped ‹_› n).symm

theorem run_eq_core_run (n : Nat) (s : State) : run n s = core.run n (startRun s) :=
  runLoop_eq_core_run n (startRun s)

/-- Settles O58. -/
theorem runIsStepsFromAddressZero : Obligations.RunIsStepsFromAddressZero :=
  run_eq_core_run

/-- A larger budget adds steps of a stopped block. -/
theorem run_of_run_stopped {n m : Nat} {s t : State} (h : run n s = .next t) (ht : t.status ≠ .running)
    (hle : n ≤ m) : run m s = .next t := by
  obtain ⟨k, rfl⟩ := Nat.exists_eq_add_of_le hle
  rw [run_eq_core_run] at h ⊢
  exact (core_run_add h k).trans (core_run_stopped ht k)

/-- Settles O59: of two runs that stop, the longer one ends where the shorter one does. -/
theorem runWithoutBudgetHasOneEnd : Obligations.RunWithoutBudgetHasOneEnd := by
  refine ⟨?unique, ?stopped, fun n m s t h ht hle => run_of_run_stopped h ht hle⟩
  case unique =>
    rintro s t u ⟨n, hn, ht⟩ ⟨m, hm, hu⟩
    have htmax := run_of_run_stopped hn ht (Nat.le_max_left n m)
    have humax := run_of_run_stopped hm hu (Nat.le_max_right n m)
    exact Host.Outcome.next.inj (htmax.symm.trans humax)
  case stopped =>
    rintro s t ⟨n, -, ht⟩
    cases hstatus : t.status with
    | running => exact absurd hstatus ht
    | halted => exact .inl rfl
    | error k => exact .inr ⟨k, rfl⟩

/-! ## The register ports -/

theorem Reg.toNat_byte_of_ofNat? {i : Nat} {r : Reg} (h : Reg.ofNat? i = some r) : r.byte.toNat = i := by
  unfold Reg.ofNat? at h
  split at h <;> cases h <;> rfl

theorem Reg.exists_ofNat? {i : Nat} (h : i ≤ 7) : ∃ r, Reg.ofNat? i = some r := by
  have hi : (BitVec.ofNat 8 i).toNat = i := by rw [BitVec.toNat_ofNat]; omega
  obtain ⟨r, hr⟩ := Reg.exists_byte (b := BitVec.ofNat 8 i) (by omega)
  exact ⟨r, by rw [← hi, hr, Reg.ofNat?_byte]⟩

theorem writeRegister_ok {i : Nat} {r : Reg} (h : Reg.ofNat? i = some r) (v : Byte) (s : State) :
    writeRegister i v s = .ok (s.setReg r v) := by
  rw [writeRegister, h]

theorem readRegister_ok {i : Nat} {r : Reg} (h : Reg.ofNat? i = some r) (s : State) :
    readRegister i s = .ok (s.reg r) := by
  rw [readRegister, h]

theorem readRegister_illegal {i : Nat} (h : 7 < i) (s : State) : readRegister i s = .error .addressingError := by
  rw [readRegister, Reg.ofNat?_eq_none h]

theorem writeRegister_illegal {i : Nat} (h : 7 < i) (v : Byte) (s : State) :
    writeRegister i v s = .error .addressingError := by
  rw [writeRegister, Reg.ofNat?_eq_none h]

/-- A write through the port is not seen through another index. -/
theorem readRegister_setReg_of_ne {i j : Nat} {r : Reg} (hi : Reg.ofNat? i = some r) (hj : j ≠ i) (v : Byte)
    (s : State) : readRegister j (s.setReg r v) = readRegister j s := by
  by_cases h7 : 7 < j
  · rw [readRegister_illegal h7, readRegister_illegal h7]
  · obtain ⟨r', hr'⟩ := Reg.exists_ofNat? (Nat.le_of_not_lt h7)
    have hne : r' ≠ r := by
      rintro rfl
      exact hj (by rw [← Reg.toNat_byte_of_ofNat? hr', Reg.toNat_byte_of_ofNat? hi])
    rw [readRegister_ok hr', readRegister_ok hr', reg_setReg_of_ne s v hne]

/-- Settles O60. -/
theorem hostRegisterPortsAreIndexChecked : Obligations.HostRegisterPortsAreIndexChecked := by
  constructor
  · intro i v s hi
    obtain ⟨r, hr⟩ := Reg.exists_ofNat? hi
    refine ⟨_, writeRegister_ok hr v s, ?_, fun j hj => readRegister_setReg_of_ne hr hj v s, rfl⟩
    rw [readRegister_ok hr, reg_setReg_same]
  · intro i v s hi
    exact ⟨readRegister_illegal hi s, writeRegister_illegal hi v s⟩

end Sys2Proof.Machine
